-- ==== Sys2Proof/Word.lean ====
section
/-! DEFINITION. The machine's words: the 8-bit byte, the only addressable unit (20_memory.md R61), and the
16- and 32-bit fields that the payload accessors assemble from bytes (R62, R65). -/

namespace Sys2Proof

/-- The addressable unit of both buffers (20_memory.md R61); bit 0 is the least significant (00_scope.md R8). -/
abbrev Byte := BitVec 8

/-- A 16-bit payload field or register (10_state.md R28, R30, R31, R38). -/
abbrev Half := BitVec 16

/-- A 32-bit payload field or register (10_state.md R34). -/
abbrev Word32 := BitVec 32

end Sys2Proof
end

