-- ==== Sys2Proof/Config.lean ====
section
/-! DEFINITION. The constants that the spec fixes (00_scope.md R6, R7) and the parameters it leaves open
(00_scope.md R7; 92_eei_decisions.md D3, D12, D13), the latter as a record that a machine carries unchanged. -/

namespace Sys2Proof

/-! ### Constants of the protocol (00_scope.md R6) -/

/-- SYNC: byte 0 of every request frame and of every accepted response. -/
def syncByte : Byte := 0xA5
/-- HOSTADDR: the address byte of a request frame. -/
def hostAddr : Byte := 0x40
/-- REQLEN: the length byte of a request frame. -/
def reqLen : Byte := 0x08
/-- BLK: bytes in a request frame, in one response block and in one subframe. -/
def blockLen : Nat := 13
/-- PAYOFF: offset of the first payload byte inside a block. -/
def payloadOff : Nat := 4
/-- PROBEADDR: the device address that the discovery handshake accepts. -/
def probeAddr : Byte := 0x01
/-- PROBECMD: the command that the discovery handshake sends. -/
def probeCmd : Byte := 0x90
/-- CELLCAP: capacity of the cell-voltage array. -/
def cellCap : Nat := 16
/-- SENSCAP: capacity of the temperature array. -/
def sensCap : Nat := 4
/-- BALCAP: capacity of the balancing array (92_eei_decisions.md D17). -/
def balCap : Nat := 16
/-- MAXSF_V: most subframes examined for command 0x95. -/
def maxSubframesV : Nat := 16
/-- MAXSF_T: most subframes examined for command 0x96. -/
def maxSubframesT : Nat := 3
/-- K_T: one-byte items per temperature subframe. -/
def itemsPerT : Nat := 7
/-- CUROFF: zero-current offset of the current field. -/
def currOffset : Nat := 30000
/-- TEMPOFF: zero offset of every temperature byte. -/
def tempOffset : Nat := 40
/-- ALARMCH0, the byte code of the character '0' of an alarm string (92_eei_decisions.md D23; PRESUMED, notes/assumptions/8.md). -/
def alarmCh0 : Byte := 0x30
/-- ALARMCH1, the byte code of the character '1' of an alarm string (92_eei_decisions.md D23). -/
def alarmCh1 : Byte := 0x31

/-- The nine command codes of 30_encoding.md R93 are 0x90 to 0x98; every other code is unknown (R94). -/
def namedCode (c : Byte) : Bool := decide (0x90 ≤ c.toNat ∧ c.toNat ≤ 0x98)

/-! ### Open parameters -/

/-- The parameters of 00_scope.md R7 that a model takes as arguments. A machine carries them in its state and no
operation writes them (notes/assumptions/1.md). -/
structure Config where
  /-- RXCAP, the size of RXBUF in bytes (92_eei_decisions.md D3). -/
  rxCap : Nat
  /-- OFF_TMAX, payload offset of the 0x92 maximum temperature (D12). -/
  offTMax : Fin 8
  /-- OFF_TMIN, payload offset of the 0x92 minimum temperature (D12). -/
  offTMin : Fin 8
  /-- OFF_CHGR, payload offset of the 0x94 charger status (D13). -/
  offChgr : Fin 8
  /-- OFF_LOAD, payload offset of the 0x94 load status (D13). -/
  offLoad : Fin 8
deriving DecidableEq, Repr

/-- The defaults of 00_scope.md R7 (the offsets PRESUMED, notes/assumptions/6.md). -/
def Config.standard : Config :=
  { rxCap := 208, offTMax := 0, offTMin := 2, offChgr := 2, offLoad := 3 }

/-- The constraints of the parameter summary of 92_eei_decisions.md. -/
def Config.ok (c : Config) : Bool :=
  decide (208 ≤ c.rxCap) && decide (c.offTMax ≠ c.offTMin)
    && decide (c.offChgr = 2 ∨ c.offChgr = 3) && decide (c.offLoad = 2 ∨ c.offLoad = 3)
    && decide (c.offChgr ≠ c.offLoad)

end Sys2Proof
end

