-- ==== Sys2Proof/Syntax.lean ====
section
/-! DEFINITION. The instructions: one constructor per row of spec/opcode_table.json. The REQ rows are the 13-byte
request frames that OP_ENCODE builds, the RSP rows the response blocks that OP_DECODE selects by byte 2, and the
OP rows the six abstract host operations (30_encoding.md R93, R98, R99). -/

namespace Sys2Proof

/-- An instruction. The operands of an RSP row are ALL the fields of its block 0 but the sync byte and the command
code, which select the row (30_encoding.md R82); `unread` fields are carried so that no bit of a block is lost.
Payload fields whose offset is a parameter stay in the eight payload bytes. -/
inductive Instr where
  /-- REQ.ANY: the request frame for command code `cmd` (R80). -/
  | reqAny (cmd : Byte)
  | reqSoc
  | reqCellMinMax
  | reqTempMinMax
  | reqMos
  | reqStatus
  | reqCellV
  | reqTemps
  | reqBal
  | reqAlarm
  /-- RSP.SOC, 0x90 (R86). -/
  | rspSoc (addr len : Byte) (volt unread curr soc : Half) (b12 : Byte)
  /-- RSP.CELLMINMAX, 0x91 (R87). -/
  | rspCellMinMax (addr len : Byte) (hiCell : Half) (hiIdx : Byte) (loCell : Half) (loIdx : Byte) (unread : Half)
      (b12 : Byte)
  /-- RSP.TEMPMINMAX, 0x92 (R88): the two offsets are parameters. -/
  | rspTempMinMax (addr len : Byte) (payload : Vector Byte 8) (b12 : Byte)
  /-- RSP.MOS, 0x93 (R89). -/
  | rspMos (addr len cdStat chgMos disMos unread : Byte) (remCap : Word32) (b12 : Byte)
  /-- RSP.STATUS, 0x94 (R90): two of the offsets are parameters. -/
  | rspStatus (addr len : Byte) (payload : Vector Byte 8) (b12 : Byte)
  /-- RSP.CELLV, 0x95 (R84): the fields of subframe 0. -/
  | rspCellV (addr len seq : Byte) (item0 item1 item2 : Half) (unread b12 : Byte)
  /-- RSP.TEMPS, 0x96 (R85): the fields of subframe 0. -/
  | rspTemps (addr len seq : Byte) (items : Vector Byte 7) (b12 : Byte)
  /-- RSP.BAL, 0x97 (R91): the status bytes of cells 0 to 7; cell 8 is `b12`. -/
  | rspBal (addr len : Byte) (cells : Vector Byte 8) (b12 : Byte)
  /-- RSP.ALARM, 0x98 (R92). -/
  | rspAlarm (addr len : Byte) (alarms : Vector Byte 8) (b12 : Byte)
  /-- RSP.UNKNOWN: any of the 247 other codes (R94). -/
  | rspUnknown (addr cmd len : Byte) (payload : Vector Byte 8) (b12 : Byte)
  | opReset
  /-- OP_SETADDR a (40_frame_codec.md R111). -/
  | opSetAddr (a : Byte)
  /-- OP_ENCODE c (R112). -/
  | opEncode (c : Byte)
  /-- OP_LOAD bs (R113): the received bytes, the first received first. -/
  | opLoad (bs : List Byte)
  | opValidate
  | opDecode
deriving DecidableEq, Repr

/-- The rows of format REQ13: frames that the unit builds. -/
def Instr.isRequest : Instr → Bool
  | .reqAny _ | .reqSoc | .reqCellMinMax | .reqTempMinMax | .reqMos | .reqStatus | .reqCellV | .reqTemps | .reqBal
  | .reqAlarm => true
  | .rspSoc .. | .rspCellMinMax .. | .rspTempMinMax .. | .rspMos .. | .rspStatus .. | .rspCellV .. | .rspTemps ..
  | .rspBal .. | .rspAlarm .. | .rspUnknown .. => false
  | .opReset | .opSetAddr _ | .opEncode _ | .opLoad _ | .opValidate | .opDecode => false

/-- The rows of formats RSP13, SUBV and SUBT: response blocks that the unit decodes. -/
def Instr.isResponse : Instr → Bool
  | .rspSoc .. | .rspCellMinMax .. | .rspTempMinMax .. | .rspMos .. | .rspStatus .. | .rspCellV .. | .rspTemps ..
  | .rspBal .. | .rspAlarm .. | .rspUnknown .. => true
  | .reqAny _ | .reqSoc | .reqCellMinMax | .reqTempMinMax | .reqMos | .reqStatus | .reqCellV | .reqTemps | .reqBal
  | .reqAlarm => false
  | .opReset | .opSetAddr _ | .opEncode _ | .opLoad _ | .opValidate | .opDecode => false

end Sys2Proof
end

