-- ==== Sys2Proof/WellFormed.lean ====
section
/-! DEFINITION. When an instruction term is one that the table's rows and the operations' operand ranges admit. -/

namespace Sys2Proof

/-- Well-formedness over the parameters `c`.
* `reqAny`: the nine named codes have rows of their own, so the template row stands for the other codes (R98);
* `rspUnknown`: the fallback row holds only the codes outside 0x90 to 0x98 (30_encoding.md R94);
* `opLoad`: at most RXCAP bytes (40_frame_codec.md R113).
Every other operand takes every value of its type. -/
def Instr.wellFormed (c : Config) : Instr → Bool
  | .reqAny cmd => !namedCode cmd
  | .rspUnknown _ cmd _ _ _ => !namedCode cmd
  | .opLoad bs => decide (bs.length ≤ c.rxCap)
  | .reqSoc | .reqCellMinMax | .reqTempMinMax | .reqMos | .reqStatus | .reqCellV | .reqTemps | .reqBal
  | .reqAlarm => true
  | .rspSoc .. | .rspCellMinMax .. | .rspTempMinMax .. | .rspMos .. | .rspStatus .. | .rspCellV .. | .rspTemps ..
  | .rspBal .. | .rspAlarm .. => true
  | .opReset | .opSetAddr _ | .opEncode _ | .opValidate | .opDecode => true

end Sys2Proof
end

