-- ==== Sys2Proof/Decode.lean ====
section
/-! DEFINITION. Frames and instructions: the byte-order helpers, the total decoders (request frames, response
blocks, the opcode table's words) and the encoder, all from 30_encoding.md. The six host operations have no bit
encoding (R99): the decoders never answer one and the encoder gives them no bytes. -/

namespace Sys2Proof

/-! ### Byte order and indexing -/

/-- The byte at index `a` of a frame or of the received bytes. No rule reads past the end
(20_memory.md R65), so the 0 given there is never used. -/
def byteAt (bs : List Byte) (a : Nat) : Byte := bs.getD a 0

/-- The unsigned number of bytes in big-endian order: MemRead of 00_scope.md R9, 20_memory.md R62. -/
def beNat (bs : List Byte) : Nat := bs.foldl (fun acc b => 256 * acc + b.toNat) 0

/-- A big-endian 16-bit field from its two bytes (R62). -/
def be16 (b0 b1 : Byte) : Half := BitVec.ofNat 16 (beNat [b0, b1])

/-- A big-endian 32-bit field from its four bytes (R62). -/
def be32 (b0 b1 b2 b3 : Byte) : Word32 := BitVec.ofNat 32 (beNat [b0, b1, b2, b3])

/-- The two bytes of a 16-bit field, most significant first. -/
def bytes16 (x : Half) : List Byte := [x.extractLsb' 8 8, x.extractLsb' 0 8]

/-- The four bytes of a 32-bit field, most significant first. -/
def bytes32 (x : Word32) : List Byte :=
  [x.extractLsb' 24 8, x.extractLsb' 16 8, x.extractLsb' 8 8, x.extractLsb' 0 8]

/-- The modulo-256 sum of bytes taken as unsigned integers (30_encoding.md R81). -/
def checksum (bs : List Byte) : Byte := BitVec.ofNat 8 ((bs.map BitVec.toNat).sum % 256)

/-! ### Request frames -/

/-- The first twelve bytes of a request frame (R80). -/
def requestBody (c : Byte) : List Byte := [syncByte, hostAddr, c, reqLen] ++ List.replicate 8 0x00

/-- The request frame REQ13 for command code `c`: the body and the sum of its bytes (R80, R81). -/
def requestFrame (c : Byte) : List Byte := requestBody c ++ [checksum (requestBody c)]

/-- The REQ row of a command code: the nine named rows of R98, the template row for every other code. -/
def requestRow (c : Byte) : Instr :=
  if c = 0x90 then .reqSoc
  else if c = 0x91 then .reqCellMinMax
  else if c = 0x92 then .reqTempMinMax
  else if c = 0x93 then .reqMos
  else if c = 0x94 then .reqStatus
  else if c = 0x95 then .reqCellV
  else if c = 0x96 then .reqTemps
  else if c = 0x97 then .reqBal
  else if c = 0x98 then .reqAlarm
  else .reqAny c

/-! ### Response blocks -/

/-- The block `A5 addr cmd len payload b12` (R82). -/
def responseBlock (addr cmd len : Byte) (payload : List Byte) (b12 : Byte) : List Byte :=
  [syncByte, addr, cmd, len] ++ payload ++ [b12]

/-- `n` consecutive bytes from index `a`. -/
def bytesFrom (n : Nat) (bs : List Byte) (a : Nat) : Vector Byte n := Vector.ofFn fun k => byteAt bs (a + k.val)

/-- The RSP row and the fields of a block, by byte 2 (R86 to R94). It reads bytes 1 to 12 only. -/
def responseRow (b : List Byte) : Instr :=
  let cmd := byteAt b 2
  let addr := byteAt b 1
  let len := byteAt b 3
  let b12 := byteAt b 12
  let u16 (k : Nat) := be16 (byteAt b k) (byteAt b (k + 1))
  let payload := bytesFrom 8 b 4
  if cmd = 0x90 then .rspSoc addr len (u16 4) (u16 6) (u16 8) (u16 10) b12
  else if cmd = 0x91 then .rspCellMinMax addr len (u16 4) (byteAt b 6) (u16 7) (byteAt b 9) (u16 10) b12
  else if cmd = 0x92 then .rspTempMinMax addr len payload b12
  else if cmd = 0x93 then
    .rspMos addr len (byteAt b 4) (byteAt b 5) (byteAt b 6) (byteAt b 7)
      (be32 (byteAt b 8) (byteAt b 9) (byteAt b 10) (byteAt b 11)) b12
  else if cmd = 0x94 then .rspStatus addr len payload b12
  else if cmd = 0x95 then .rspCellV addr len (byteAt b 4) (u16 5) (u16 7) (u16 9) (byteAt b 11) b12
  else if cmd = 0x96 then .rspTemps addr len (byteAt b 4) (bytesFrom 7 b 5) b12
  else if cmd = 0x97 then .rspBal addr len payload b12
  else if cmd = 0x98 then .rspAlarm addr len payload b12
  else .rspUnknown addr cmd len payload b12

/-! ### The decoders -/

/-- Why bytes are no instruction. -/
inductive Reject where
  /-- The bytes match no REQ row's mask. -/
  | notARequest
  /-- Fewer than 13 bytes (FrameTooShort, 60_exceptions.md R201). -/
  | frameTooShort
  /-- Byte 0 is not 0xA5 (BadSync, R202). -/
  | badSync
deriving DecidableEq, Repr

/-- The transmit direction, by the table's masks (30_encoding.md, its opening; notes/assumptions/5.md). The nine named
rows match exactly the 13 bytes that OP_ENCODE builds, checksum included (R98). The template row's mask leaves byte 12
out, so for any other code byte 12 is not compared. -/
def decodeRequest (bs : List Byte) : Except Reject Instr :=
  let c := byteAt bs 2
  if bs = requestFrame c then .ok (requestRow c)
  else if bs.length = blockLen ∧ bs.take 12 = requestBody c ∧ namedCode c = false then .ok (.reqAny c)
  else .error .notARequest

/-- The receive direction: what OP_DECODE makes of received bytes, from block 0 alone. Byte 1 is not tested here: the
address it must equal is a register (40_frame_codec.md R114). -/
def decodeResponse (bs : List Byte) : Except Reject Instr :=
  if bs.length < blockLen then .error .frameTooShort
  else if byteAt bs 0 ≠ syncByte then .error .badSync
  else .ok (responseRow bs)

/-- The words of the opcode table, both directions: a request frame reads as its REQ row, every other word as a
response block. A request frame is a possible response block as well (40_frame_codec.md R120); the unit itself
reads received bytes with `decodeResponse` only (notes/assumptions/5.md). -/
def decode (bs : List Byte) : Except Reject Instr :=
  match decodeRequest bs with
  | .ok i => .ok i
  | .error _ => decodeResponse bs

/-! ### The encoder -/

/-- The bytes of a frame row; none for a host operation, which has no encoding (R99). -/
def encode : Instr → Option (List Byte)
  | .reqAny c => some (requestFrame c)
  | .reqSoc => some (requestFrame 0x90)
  | .reqCellMinMax => some (requestFrame 0x91)
  | .reqTempMinMax => some (requestFrame 0x92)
  | .reqMos => some (requestFrame 0x93)
  | .reqStatus => some (requestFrame 0x94)
  | .reqCellV => some (requestFrame 0x95)
  | .reqTemps => some (requestFrame 0x96)
  | .reqBal => some (requestFrame 0x97)
  | .reqAlarm => some (requestFrame 0x98)
  | .rspSoc addr len volt unread curr soc b12 =>
    some (responseBlock addr 0x90 len (bytes16 volt ++ bytes16 unread ++ bytes16 curr ++ bytes16 soc) b12)
  | .rspCellMinMax addr len hiCell hiIdx loCell loIdx unread b12 =>
    some (responseBlock addr 0x91 len (bytes16 hiCell ++ [hiIdx] ++ bytes16 loCell ++ [loIdx] ++ bytes16 unread) b12)
  | .rspTempMinMax addr len payload b12 => some (responseBlock addr 0x92 len payload.toList b12)
  | .rspMos addr len cdStat chgMos disMos unread remCap b12 =>
    some (responseBlock addr 0x93 len ([cdStat, chgMos, disMos, unread] ++ bytes32 remCap) b12)
  | .rspStatus addr len payload b12 => some (responseBlock addr 0x94 len payload.toList b12)
  | .rspCellV addr len seq item0 item1 item2 unread b12 =>
    some (responseBlock addr 0x95 len ([seq] ++ bytes16 item0 ++ bytes16 item1 ++ bytes16 item2 ++ [unread]) b12)
  | .rspTemps addr len seq items b12 => some (responseBlock addr 0x96 len (seq :: items.toList) b12)
  | .rspBal addr len cells b12 => some (responseBlock addr 0x97 len cells.toList b12)
  | .rspAlarm addr len alarms b12 => some (responseBlock addr 0x98 len alarms.toList b12)
  | .rspUnknown addr cmd len payload b12 => some (responseBlock addr cmd len payload.toList b12)
  | .opReset | .opSetAddr _ | .opEncode _ | .opLoad _ | .opValidate | .opDecode => none

/-! ### The table's words -/

/-- The 13 bytes of a table word of `nbits` bits: byte 0, the first on the wire, holds the least significant bits, and
every bit from `nbits` up is 0. -/
def tableBytes (nbits w : Nat) : List Byte :=
  (List.range blockLen).map fun k => BitVec.ofNat 8 (w % 2 ^ nbits / 256 ^ k)

/-- The instruction that `decode` reads from a table word. -/
def decodeTableWord (nbits w : Nat) : Option Instr :=
  match decode (tableBytes nbits w) with
  | .ok i => some i
  | .error _ => none

end Sys2Proof
end

