-- ==== Sys2Proof/Machine/State.lean ====
section
/-! DEFINITION. The state of the unit (10_state.md R20 to R41, R45), with the two things that are the model's own: the
open parameters and the operations that the host has issued and the unit has not yet run. -/

namespace Sys2Proof.Machine

/-- A byte buffer as its listed cells: addresses strictly rising, no cell equal to what an unlisted address reads as
(`Memory.wf` in Machine/Ops.lean). -/
abbrev Memory := List Host.Cell

/-- One slot of an array with a presence bit (R27): the data bits and the bit. -/
structure Slot (w : Nat) where
  val : BitVec w
  present : Bool
deriving DecidableEq, Repr

/-- An absent slot: its data bits read 0 (R27). -/
def Slot.absent {w : Nat} : Slot w := { val := 0, present := false }

/-- The frame-header outputs F_ADDR, F_CMD, F_LEN, F_B12 (R24). -/
structure Header where
  addr : Byte
  cmd : Byte
  len : Byte
  b12 : Byte
deriving DecidableEq, Repr

/-- STATUS (R25): the spec gives the fields and no layout in a word. -/
structure Status where
  err : BitVec 3
  hdrv : Bool
  unk : Bool
  seqmis : Bool
  csumok : Bool
deriving DecidableEq, Repr

/-- The reassembly registers RA_IDX, RA_REM, RA_SKIP (R26). -/
structure Reassembly where
  idx : BitVec 5
  rem : BitVec 5
  skip : BitVec 5
deriving DecidableEq, Repr

/-- The TelemetrySnapshot: presence bits, scalar registers and arrays (R27 to R41). -/
structure Snapshot where
  p90 : Bool
  p91 : Bool
  p92 : Bool
  p93 : Bool
  p94 : Bool
  p97 : Bool
  p98 : Bool
  /-- VOLT, unit 0.1 V (R28). -/
  volt : Half
  /-- CURR, 17 bits two's complement, unit 0.1 A (R29). -/
  curr : BitVec 17
  /-- SOC, unit 0.1 % (R30). -/
  soc : Half
  hiCell : Half
  hiIdx : Byte
  loCell : Half
  loIdx : Byte
  /-- TMAX, 9 bits two's complement, degrees C (R32). -/
  tMax : BitVec 9
  tMin : BitVec 9
  cdStat : Byte
  chgMos : Byte
  disMos : Byte
  /-- REMCAP, unit 1 mAh (R34). -/
  remCap : Word32
  cellCnt : Byte
  sensCnt : Byte
  chgrStat : Byte
  loadStat : Byte
  /-- DI: bit n is the 1-bit slot DI[n] (R37). -/
  dIn : BitVec 4
  /-- DO: bit n is the 1-bit slot DO[n] (R37). -/
  dOut : BitVec 4
  /-- CELLV with CELLV_P (R38). -/
  cellV : Vector (Slot 16) 16
  /-- TEMP with TEMP_P (R39). -/
  temp : Vector (Slot 9) 4
  /-- BAL with BAL_P (R40). -/
  bal : Vector (Slot 8) 16
  balAct : Bool
  /-- ALARM; one presence bit, P98, for all eight (R41). -/
  alarm : Vector Byte 8
deriving DecidableEq, Repr

/-- An operation that the host can issue (40_frame_codec.md R110). -/
inductive HostOp where
  | reset
  | setAddr (a : Byte)
  | encode (c : Byte)
  | load (bs : List Byte)
  | validate
  | decode
deriving DecidableEq, Repr

/-- The error kinds that STATUS.ERR reports (60_exceptions.md R200). -/
inductive ErrKind where
  | frameTooShort
  | badSync
  | unexpectedAddress
  | capacityExceeded
  | payloadOverrun
deriving DecidableEq, Repr

/-- The state. -/
structure State where
  /-- The model's own: the open parameters (00_scope.md R7), which no operation writes (DESIGN CHOICE,
  notes/assumptions/1.md). -/
  cfg : Config
  /-- The model's own: the operations issued and not yet run, the next one first (R43, 20_memory.md R67; DESIGN
  CHOICE, notes/assumptions/2.md). -/
  pending : List HostOp
  /-- EXPADDR (R21). -/
  expAddr : Byte
  /-- TXBUF, indices 0 to 12 (R22). -/
  txBuf : Memory
  /-- RXBUF, indices 0 to RXCAP-1 (R23). -/
  rxBuf : Memory
  /-- RXLEN, 0 to RXCAP (R23). -/
  rxLen : Nat
  hdr : Header
  status : Status
  ra : Reassembly
  snap : Snapshot
deriving DecidableEq, Repr

/-- What makes the machine stop with a fault: nothing. The spec has no error after which the unit cannot continue
(60_exceptions.md R209), and every error kind is a value in STATUS of a next state (R205; DEDUCED,
notes/assumptions/9.md). Safe: the type is empty. -/
inductive Fault
deriving DecidableEq, Repr

/-- Why an instruction has no step. -/
inductive Refusal where
  /-- An arm of exec that has no meaning yet (none is left). Safe: the machine stops. -/
  | notModelled (mnemonic : String)
  /-- Raised by OP_LOAD of more bytes than RXCAP, which the host cannot issue and a model refuses
  (40_frame_codec.md R113, 93_implementation_defined.md U13). Safe: the machine stops. -/
  | loadTooLong (n cap : Nat)
  /-- Raised by the decoder dispatch of OP_DECODE for a row that is no response. No state reaches it, since every block
  reads as an RSP row (`responseRow_isResponse`). Safe: the machine stops. -/
  | notAResponse
deriving DecidableEq, Repr

/-! ### Reset (R45) -/

/-- The snapshot after reset: every register 0, every presence bit absent. -/
def Snapshot.reset : Snapshot :=
  { p90 := false, p91 := false, p92 := false, p93 := false, p94 := false, p97 := false, p98 := false
    volt := 0, curr := 0, soc := 0
    hiCell := 0, hiIdx := 0, loCell := 0, loIdx := 0, tMax := 0, tMin := 0
    cdStat := 0, chgMos := 0, disMos := 0, remCap := 0
    cellCnt := 0, sensCnt := 0, chgrStat := 0, loadStat := 0, dIn := 0, dOut := 0
    cellV := Vector.replicate 16 .absent, temp := Vector.replicate 4 .absent
    bal := Vector.replicate 16 .absent, balAct := false, alarm := Vector.replicate 8 0 }

/-- STATUS with every field 0. -/
def Status.clear : Status := { err := 0, hdrv := false, unk := false, seqmis := false, csumok := false }

/-- RA_IDX, RA_REM and RA_SKIP all 0. -/
def Reassembly.clear : Reassembly := { idx := 0, rem := 0, skip := 0 }

/-- The machine right after reset (R45), with the default parameters and nothing issued. -/
def State.reset : State :=
  { cfg := .standard, pending := [], expAddr := 0x01, txBuf := [], rxBuf := [], rxLen := 0
    hdr := { addr := 0, cmd := 0, len := 0, b12 := 0 }, status := .clear, ra := .clear, snap := .reset }

end Sys2Proof.Machine
end

