-- ==== Sys2Proof/Machine/Ops.lean ====
section
/-! DEFINITION. The named operations over buffers and registers that the meanings share, and raising an error, the
unit's whole notion of taking an exception (60_exceptions.md R205). There is no return: nothing is saved and
nothing is restored (R209). -/

namespace Sys2Proof.Machine

/-! ### Buffers (20_memory.md R60, R61) -/

/-- What an unlisted address reads as: 0x00, the reset contents of both buffers (10_state.md R45;
notes/assumptions/7.md). -/
def Memory.unlisted : Byte := 0x00

/-- The byte at index `a`. A read has no side effect (20_memory.md R65). -/
def Memory.read : Memory → Nat → Byte
  | [], _ => Memory.unlisted
  | (k, b) :: m, a => if k = a then b else Memory.read m a

/-- Write one byte, keeping the canonical form: the cells stay sorted, and a byte equal to what an unlisted address
reads as is not listed. -/
def Memory.write : Memory → Nat → Byte → Memory
  | [], a, v => if v = Memory.unlisted then [] else [(a, v)]
  | (k, b) :: m, a, v =>
    if a < k then (if v = Memory.unlisted then (k, b) :: m else (a, v) :: (k, b) :: m)
    else if k = a then (if v = Memory.unlisted then m else (k, v) :: m)
    else (k, b) :: Memory.write m a v

/-- Write consecutive bytes from index `a`. -/
def Memory.store : Memory → Nat → List Byte → Memory
  | m, _, [] => m
  | m, a, v :: vs => Memory.store (Memory.write m a v) (a + 1) vs

/-- The cells lie from index `lo` up and below `cap`, in strictly rising order, none with the unlisted byte. -/
def Memory.wfFrom (cap : Nat) : Nat → Memory → Bool
  | _, [] => true
  | lo, (k, b) :: m => decide (lo ≤ k) && decide (k < cap) && decide (b ≠ Memory.unlisted) && Memory.wfFrom cap (k + 1) m

/-- The canonical form of a buffer of `cap` bytes. -/
def Memory.wf (cap : Nat) (m : Memory) : Bool := Memory.wfFrom cap 0 m

/-! ### The receive buffer -/

/-- The received response: RXBUF[0] to RXBUF[RXLEN-1] (10_state.md R23). -/
def State.received (s : State) : List Byte := (List.range s.rxLen).map s.rxBuf.read

/-- The response that a decoder works on: the block of the instruction itself, then the received bytes after block 0.
Inside OP_DECODE the block is block 0 of RXBUF, so this is the received response (`respView_received`). -/
def State.respView (s : State) (block : List Byte) : List Byte := block ++ s.received.drop blockLen

/-- Deliver received bytes (40_frame_codec.md R113): bytes past the delivered ones keep their values. -/
def State.loadRx (s : State) (bs : List Byte) : State :=
  { s with rxBuf := s.rxBuf.store 0 bs, rxLen := bs.length }

/-- Build a frame in the transmit buffer. -/
def State.storeTx (s : State) (bs : List Byte) : State := { s with txBuf := s.txBuf.store 0 bs }

/-! ### Status, header and snapshot updates -/

/-- The code of an error kind in STATUS.ERR (60_exceptions.md R200). -/
def ErrKind.code : ErrKind → BitVec 3
  | .frameTooShort => 1
  | .badSync => 2
  | .unexpectedAddress => 3
  | .capacityExceeded => 4
  | .payloadOverrun => 5

/-- `raise E` (00_scope.md R9, 60_exceptions.md R205): STATUS.ERR takes the code of E and the operation ends. Nothing
is saved, no mode changes, control goes nowhere. -/
def State.raise (s : State) (e : ErrKind) : State := { s with status := { s.status with err := e.code } }

/-- STATUS and RA_* cleared, as every OP_VALIDATE and OP_DECODE begins (40_frame_codec.md R114). -/
def State.clearOutcome (s : State) : State := { s with status := .clear, ra := .clear }

/-- STATUS.CSUMOK written. -/
def State.setCsumOk (s : State) (v : Bool) : State := { s with status := { s.status with csumok := v } }

/-- The header of block 0 copied to F_* and STATUS.HDRV set (40_frame_codec.md R115). -/
def State.latchHeader (s : State) : State :=
  { s with
    hdr := { addr := s.rxBuf.read 1, cmd := s.rxBuf.read 2, len := s.rxBuf.read 3, b12 := s.rxBuf.read 12 }
    status := { s.status with hdrv := true } }

/-- The snapshot updated. -/
def State.onSnap (s : State) (f : Snapshot → Snapshot) : State := { s with snap := f s.snap }

/-! ### The host's operations -/

/-- The instruction of an issued operation: the OP row of its name (40_frame_codec.md R110). -/
def HostOp.instr : HostOp → Instr
  | .reset => .opReset
  | .setAddr a => .opSetAddr a
  | .encode c => .opEncode c
  | .load bs => .opLoad bs
  | .validate => .opValidate
  | .decode => .opDecode

/-- Issue an operation so that it is the next one to run. -/
def State.issue (s : State) (op : HostOp) : State := { s with pending := op :: s.pending }

/-- Place a table word so that the next step runs it (notes/assumptions/4.md). A request frame is what OP_ENCODE of
its code builds, so that operation is issued. Every other word is received: loaded into RXBUF, with EXPADDR the
address it carries (validation would turn the block away otherwise), and OP_DECODE is issued. -/
def State.placeFrame (s : State) (bs : List Byte) : State :=
  match decodeRequest bs with
  | .ok _ => s.issue (.encode (byteAt bs 2))
  | .error _ => State.issue { s.loadRx bs with expAddr := byteAt bs 1 } .decode

end Sys2Proof.Machine
end

