-- ==== Sys2Proof/Machine/Operands.lean ====
section
/-! DEFINITION. The payload accessors of 00_scope.md R9 over a response (the bytes from its sync byte on), the signed
offset decodings, and the bit fields of the io byte. -/

namespace Sys2Proof.Machine

/-- `pb(k)`: payload byte k of the first block. -/
def pb (v : List Byte) (k : Nat) : Byte := byteAt v (payloadOff + k)

/-- `sb(i, k)`: payload byte k of subframe i. -/
def sb (v : List Byte) (i k : Nat) : Byte := byteAt v (blockLen * i + payloadOff + k)

/-- `su16(i, k)`: the big-endian field at payload offsets k and k+1 of subframe i. -/
def su16 (v : List Byte) (i k : Nat) : Half := be16 (sb v i k) (sb v i (k + 1))

/-- CURR of a raw current: the integer raw - 30000 in 17 bits two's complement (41_field_decoders.md R141). -/
def currOf (raw : Half) : BitVec 17 := BitVec.ofInt 17 ((raw.toNat : Int) - (currOffset : Int))

/-- A temperature of a byte: the integer byte - 40 in 9 bits two's complement (R143, 42_reassembler.md R176). -/
def tempOf (b : Byte) : BitVec 9 := BitVec.ofInt 9 ((b.toNat : Int) - (tempOffset : Int))

/-- DI of the io byte: slot n is bit n (R145, R152). -/
def ioInputs (io : Byte) : BitVec 4 := io.extractLsb' 0 4

/-- DO of the io byte: slot n is bit 4+n (R145, R152). -/
def ioOutputs (io : Byte) : BitVec 4 := io.extractLsb' 4 4

/-- The three items of voltage subframe i: item j is su16(i, 1 + 2j) (42_reassembler.md R170, R175). -/
def voltItems (v : List Byte) (i : Nat) : List Half := [su16 v i 1, su16 v i 3, su16 v i 5]

/-- The seven items of temperature subframe i: item j is sb(i, 1 + j) - 40 (R170, R176). -/
def tempItems (v : List Byte) (i : Nat) : List (BitVec 9) :=
  (List.range itemsPerT).map fun j => tempOf (sb v i (1 + j))

end Sys2Proof.Machine
end

