-- ==== Sys2Proof/Machine/Flags.lean ====
section
/-! DEFINITION. The status computations: CSUMOK, the framing checks that set STATUS.ERR and STATUS.HDRV, and the flags
that decoders set. -/

namespace Sys2Proof.Machine

/-- CSUMOK of the receive buffer (40_frame_codec.md R117): the request formula over bytes 0 to 11 of block 0 against
byte 12. -/
def State.csumOk (s : State) : Bool := decide (checksum ((List.range 12).map s.rxBuf.read) = s.rxBuf.read 12)

/-- The checks and effects of OP_VALIDATE (R114 to R117): length, sync byte, address, in that order; the first that
fails decides the error. -/
def State.validated (s : State) : State :=
  let s0 := s.clearOutcome
  if s.rxLen < blockLen then s0.raise .frameTooShort
  else
    let s1 := s0.setCsumOk s.csumOk
    if s.rxBuf.read 0 ≠ syncByte then s1.raise .badSync
    else if s.rxBuf.read 1 ≠ s.expAddr then s1.raise .unexpectedAddress
    else s1.latchHeader

/-- STATUS.UNK set (41_field_decoders.md R149). -/
def State.setUnk (s : State) : State := { s with status := { s.status with unk := true } }

/-- STATUS.SEQMIS set when a subframe was skipped, left alone otherwise (42_reassembler.md R174). -/
def Status.noteSkips (st : Status) (skip : Nat) : Status := { st with seqmis := st.seqmis || decide (0 < skip) }

end Sys2Proof.Machine
end

