-- ==== Sys2Proof/Machine/FieldDecoders.lean ====
section
/-! DEFINITION. The single-response decoders: RSP rows 0x90 to 0x94, 0x97, 0x98 and the unknown codes
(41_field_decoders.md R140 to R149). Each meaning is the decoder alone, as it runs inside OP_DECODE after validation
has written STATUS and F_* (R140); the fields of block 0 are the instruction's operands (DEDUCED, notes/assumptions/3.md). -/

namespace Sys2Proof.Machine

/-- D90 (R141). -/
def execRspSoc (_addr _len : Byte) (volt _unread curr soc : Half) (_b12 : Byte) (s : State) :
    Host.Outcome State Fault Refusal :=
  .next (s.onSnap fun p => { p with volt := volt, curr := currOf curr, soc := soc, p90 := true })

/-- D91 (R142). -/
def execRspCellMinMax (_addr _len : Byte) (hiCell : Half) (hiIdx : Byte) (loCell : Half) (loIdx : Byte)
    (_unread : Half) (_b12 : Byte) (s : State) : Host.Outcome State Fault Refusal :=
  .next (s.onSnap fun p =>
    { p with hiCell := hiCell, hiIdx := hiIdx, loCell := loCell, loIdx := loIdx, p91 := true })

/-- D92 (R143): the two bytes lie at the offsets OFF_TMAX and OFF_TMIN. -/
def execRspTempMinMax (_addr _len : Byte) (payload : Vector Byte 8) (_b12 : Byte) (s : State) :
    Host.Outcome State Fault Refusal :=
  .next (s.onSnap fun p =>
    { p with tMax := tempOf payload[s.cfg.offTMax], tMin := tempOf payload[s.cfg.offTMin], p92 := true })

/-- D93 (R144). -/
def execRspMos (_addr _len cdStat chgMos disMos _unread : Byte) (remCap : Word32) (_b12 : Byte) (s : State) :
    Host.Outcome State Fault Refusal :=
  .next (s.onSnap fun p => { p with cdStat := cdStat, chgMos := chgMos, disMos := disMos, remCap := remCap, p93 := true })

/-- D94 (R145): counts are stored as received, whatever they are; charger and load status lie at OFF_CHGR and
OFF_LOAD. -/
def execRspStatus (_addr _len : Byte) (payload : Vector Byte 8) (_b12 : Byte) (s : State) :
    Host.Outcome State Fault Refusal :=
  .next (s.onSnap fun p =>
    { p with
      cellCnt := payload[0], sensCnt := payload[1]
      chgrStat := payload[s.cfg.offChgr], loadStat := payload[s.cfg.offLoad]
      dIn := ioInputs payload[4], dOut := ioOutputs payload[4], p94 := true })

/-- The BAL slots that D97 writes: cell k from payload offset k below the count, absent from the count up (R146). -/
def balSlots (v : List Byte) (n : Nat) : Vector (Slot 8) 16 :=
  Vector.ofFn fun k => if k.val < n then { val := pb v k.val, present := true } else .absent

/-- The logical OR of the status bytes of cells 0 to n-1 (R146). -/
def anyActive (v : List Byte) (n : Nat) : Bool := (List.range n).any fun k => decide (pb v k ≠ 0)

/-- D97 (R146): capacity, then extent, both before any write. The cells run over the whole received response, so cell 8
is byte 12 of block 0 and cells 9 to 15 are the bytes after it (30_encoding.md R91). -/
def execRspBal (addr len : Byte) (cells : Vector Byte 8) (b12 : Byte) (s : State) :
    Host.Outcome State Fault Refusal :=
  let v := s.respView (responseBlock addr 0x97 len cells.toList b12)
  let n := s.snap.cellCnt.toNat
  if balCap < n then .next (s.raise .capacityExceeded)
  else if v.length < payloadOff + n then .next (s.raise .payloadOverrun)
  else .next (s.onSnap fun p => { p with bal := balSlots v n, balAct := anyActive v n, p97 := true })

/-- D98 (R147). -/
def execRspAlarm (_addr _len : Byte) (alarms : Vector Byte 8) (_b12 : Byte) (s : State) :
    Host.Outcome State Fault Refusal :=
  .next (s.onSnap fun p => { p with alarm := alarms, p98 := true })

/-- DUNK (R149): a flag, no error, nothing decoded. -/
def execRspUnknown (_addr _cmd _len : Byte) (_payload : Vector Byte 8) (_b12 : Byte) (s : State) :
    Host.Outcome State Fault Refusal :=
  .next s.setUnk

end Sys2Proof.Machine
end

