-- ==== Sys2Proof/Machine/Reassembler.lean ====
section
/-! DEFINITION. The multi-subframe decoders: RSP rows 0x95 and 0x96 (42_reassembler.md R170 to R182). One algorithm,
run with the two columns of R170. The reading of the source is the spec's (notes/assumptions/10.md). -/

namespace Sys2Proof.Machine

/-- What the loop of R172 carries: the destination and the variables d, rem, i and skip. STATUS.SEQMIS follows
skip. -/
structure Progress (w cap : Nat) where
  dst : Vector (Slot w) cap
  placed : Nat
  rem : Nat
  idx : Nat
  skip : Nat
deriving DecidableEq, Repr

/-- The inner loop of R172: place items at slot `placed`, stopping when none is still required (R173). -/
def placeItems {w cap : Nat} : List (BitVec w) → Progress w cap → Progress w cap
  | [], p => p
  | x :: xs, p =>
    if p.rem = 0 then p
    else placeItems xs
      { p with
        dst := p.dst.setIfInBounds p.placed { val := x, present := true }
        placed := p.placed + 1, rem := p.rem - 1 }

/-- One subframe: used when its sequence number is its position + 1, skipped otherwise; the index moves on either way
(R174). -/
def examine {w cap : Nat} (v : List Byte) (items : Nat → List (BitVec w)) (p : Progress w cap) : Progress w cap :=
  let p' := if (sb v p.idx 0).toNat = p.idx + 1 then placeItems (items p.idx) p else { p with skip := p.skip + 1 }
  { p' with idx := p'.idx + 1 }

/-- The outer loop of R172 over at most `n` more subframes; it ends early when no item is still required. -/
def examineUpTo {w cap : Nat} (v : List Byte) (items : Nat → List (BitVec w)) :
    Nat → Progress w cap → Progress w cap
  | 0, p => p
  | n + 1, p => if p.rem = 0 then p else examineUpTo v items n (examine v items p)

/-- REASM (R172): whole blocks only, at most `maxSf` of them. -/
def reassemble {w cap : Nat} (v : List Byte) (items : Nat → List (BitVec w)) (maxSf count : Nat)
    (dst : Vector (Slot w) cap) : Progress w cap :=
  examineUpTo v items (min maxSf (v.length / blockLen)) { dst := dst, placed := 0, rem := count, idx := 0, skip := 0 }

/-- The finish of R177: slots at or beyond the count are marked absent, the others stay as the loop left them. -/
def markAbsent {w cap : Nat} (count : Nat) (dst : Vector (Slot w) cap) : Vector (Slot w) cap :=
  Vector.ofFn fun k => if k.val < count then dst[k] else .absent

/-- The final values that the host can read (R177, 10_state.md R26). -/
def Progress.registers {w cap : Nat} (p : Progress w cap) : Reassembly :=
  { idx := BitVec.ofNat 5 p.idx, rem := BitVec.ofNat 5 p.rem, skip := BitVec.ofNat 5 p.skip }

/-- RA_* and STATUS.SEQMIS after a reassembly (R174, R177). -/
def State.reportReassembly {w cap : Nat} (s : State) (p : Progress w cap) : State :=
  { s with ra := p.registers, status := s.status.noteSkips p.skip }

/-- D95 (R178): capacity first (R171), then REASM into CELLV. -/
def execRspCellV (addr len seq : Byte) (item0 item1 item2 : Half) (unread b12 : Byte) (s : State) :
    Host.Outcome State Fault Refusal :=
  let v := s.respView
    (responseBlock addr 0x95 len ([seq] ++ bytes16 item0 ++ bytes16 item1 ++ bytes16 item2 ++ [unread]) b12)
  let count := s.snap.cellCnt.toNat
  if cellCap < count then .next (s.raise .capacityExceeded)
  else
    let p := reassemble v (voltItems v) maxSubframesV count s.snap.cellV
    .next ((s.reportReassembly p).onSnap fun q => { q with cellV := markAbsent count p.dst })

/-- D96 (R179): capacity first (R171), then REASM into TEMP. -/
def execRspTemps (addr len seq : Byte) (items : Vector Byte 7) (b12 : Byte) (s : State) :
    Host.Outcome State Fault Refusal :=
  let v := s.respView (responseBlock addr 0x96 len (seq :: items.toList) b12)
  let count := s.snap.sensCnt.toNat
  if sensCap < count then .next (s.raise .capacityExceeded)
  else
    let p := reassemble v (tempItems v) maxSubframesT count s.snap.temp
    .next ((s.reportReassembly p).onSnap fun q => { q with temp := markAbsent count p.dst })

end Sys2Proof.Machine
end

