-- ==== Sys2Proof/Machine/Requests.lean ====
section
/-! DEFINITION. The REQ rows: building the request frame of a command code in TXBUF (40_frame_codec.md R112,
30_encoding.md R80, R81, R98; DEDUCED, notes/assumptions/14.md). -/

namespace Sys2Proof.Machine

/-- TXBUF takes the request frame of `c`; nothing else is written (R112). -/
def buildRequest (c : Byte) (s : State) : Host.Outcome State Fault Refusal := .next (s.storeTx (requestFrame c))

/-- REQ.ANY. -/
def execReqAny (cmd : Byte) (s : State) : Host.Outcome State Fault Refusal := buildRequest cmd s
/-- REQ.SOC. -/
def execReqSoc (s : State) : Host.Outcome State Fault Refusal := buildRequest 0x90 s
/-- REQ.CELLMINMAX. -/
def execReqCellMinMax (s : State) : Host.Outcome State Fault Refusal := buildRequest 0x91 s
/-- REQ.TEMPMINMAX. -/
def execReqTempMinMax (s : State) : Host.Outcome State Fault Refusal := buildRequest 0x92 s
/-- REQ.MOS. -/
def execReqMos (s : State) : Host.Outcome State Fault Refusal := buildRequest 0x93 s
/-- REQ.STATUS. -/
def execReqStatus (s : State) : Host.Outcome State Fault Refusal := buildRequest 0x94 s
/-- REQ.CELLV. -/
def execReqCellV (s : State) : Host.Outcome State Fault Refusal := buildRequest 0x95 s
/-- REQ.TEMPS. -/
def execReqTemps (s : State) : Host.Outcome State Fault Refusal := buildRequest 0x96 s
/-- REQ.BAL. -/
def execReqBal (s : State) : Host.Outcome State Fault Refusal := buildRequest 0x97 s
/-- REQ.ALARM. -/
def execReqAlarm (s : State) : Host.Outcome State Fault Refusal := buildRequest 0x98 s

end Sys2Proof.Machine
end

