-- ==== Sys2Proof/Machine/HostOps.lean ====
section
/-! DEFINITION. The six host operations (40_frame_codec.md R110 to R119, 70_reset_and_hazards.md R230). -/

namespace Sys2Proof.Machine

/-- OP_RESET (R230): every piece of the unit's state takes its reset value. The parameters and the host's own issued
operations are no state of the unit and stay. -/
def execOpReset (s : State) : Host.Outcome State Fault Refusal :=
  .next { State.reset with cfg := s.cfg, pending := s.pending }

/-- OP_SETADDR (R111). -/
def execOpSetAddr (a : Byte) (s : State) : Host.Outcome State Fault Refusal := .next { s with expAddr := a }

/-- OP_ENCODE (R112): any code is encoded. -/
def execOpEncode (c : Byte) (s : State) : Host.Outcome State Fault Refusal := buildRequest c s

/-- OP_LOAD (R113): more than RXCAP bytes cannot be issued and have no step. -/
def execOpLoad (bs : List Byte) (s : State) : Host.Outcome State Fault Refusal :=
  if s.cfg.rxCap < bs.length then .refused (.loadTooLong bs.length s.cfg.rxCap) else .next (s.loadRx bs)

/-- OP_VALIDATE (R114 to R117). -/
def execOpValidate (s : State) : Host.Outcome State Fault Refusal := .next s.validated

/-- The decoder of a response row (R119). -/
def runDecoder (i : Instr) (s : State) : Host.Outcome State Fault Refusal :=
  match i with
  | .rspSoc addr len volt unread curr soc b12 => execRspSoc addr len volt unread curr soc b12 s
  | .rspCellMinMax addr len hiCell hiIdx loCell loIdx unread b12 =>
    execRspCellMinMax addr len hiCell hiIdx loCell loIdx unread b12 s
  | .rspTempMinMax addr len payload b12 => execRspTempMinMax addr len payload b12 s
  | .rspMos addr len cdStat chgMos disMos unread remCap b12 =>
    execRspMos addr len cdStat chgMos disMos unread remCap b12 s
  | .rspStatus addr len payload b12 => execRspStatus addr len payload b12 s
  | .rspCellV addr len seq item0 item1 item2 unread b12 => execRspCellV addr len seq item0 item1 item2 unread b12 s
  | .rspTemps addr len seq items b12 => execRspTemps addr len seq items b12 s
  | .rspBal addr len cells b12 => execRspBal addr len cells b12 s
  | .rspAlarm addr len alarms b12 => execRspAlarm addr len alarms b12 s
  | .rspUnknown addr cmd len payload b12 => execRspUnknown addr cmd len payload b12 s
  | .reqAny _ | .reqSoc | .reqCellMinMax | .reqTempMinMax | .reqMos | .reqStatus | .reqCellV | .reqTemps | .reqBal
  | .reqAlarm => .refused .notAResponse
  | .opReset | .opSetAddr _ | .opEncode _ | .opLoad _ | .opValidate | .opDecode => .refused .notAResponse

/-- OP_DECODE (R118): OP_VALIDATE, and on success only, the decoder that the command code of block 0 selects. -/
def execOpDecode (s : State) : Host.Outcome State Fault Refusal :=
  let s1 := s.validated
  if s1.status.err ≠ 0 then .next s1 else runDecoder (responseRow s1.received) s1

end Sys2Proof.Machine
end

