-- ==== Sys2Proof/Machine/Dispatch.lean ====
section
/-! DEFINITION. The meaning of an instruction: one arm per constructor, each one call of that instruction's own
meaning. -/

namespace Sys2Proof.Machine

def exec (i : Instr) (s : State) : Host.Outcome State Fault Refusal :=
  match i with
  -- the request frames
  | .reqAny cmd => Sys2Proof.Machine.execReqAny cmd s
  | .reqSoc => Sys2Proof.Machine.execReqSoc s
  | .reqCellMinMax => Sys2Proof.Machine.execReqCellMinMax s
  | .reqTempMinMax => Sys2Proof.Machine.execReqTempMinMax s
  | .reqMos => Sys2Proof.Machine.execReqMos s
  | .reqStatus => Sys2Proof.Machine.execReqStatus s
  | .reqCellV => Sys2Proof.Machine.execReqCellV s
  | .reqTemps => Sys2Proof.Machine.execReqTemps s
  | .reqBal => Sys2Proof.Machine.execReqBal s
  | .reqAlarm => Sys2Proof.Machine.execReqAlarm s
  -- the response blocks
  | .rspSoc addr len volt unread curr soc b12 => Sys2Proof.Machine.execRspSoc addr len volt unread curr soc b12 s
  | .rspCellMinMax addr len hiCell hiIdx loCell loIdx unread b12 => Sys2Proof.Machine.execRspCellMinMax addr len hiCell hiIdx loCell loIdx unread b12 s
  | .rspTempMinMax addr len payload b12 => Sys2Proof.Machine.execRspTempMinMax addr len payload b12 s
  | .rspMos addr len cdStat chgMos disMos unread remCap b12 => Sys2Proof.Machine.execRspMos addr len cdStat chgMos disMos unread remCap b12 s
  | .rspStatus addr len payload b12 => Sys2Proof.Machine.execRspStatus addr len payload b12 s
  | .rspCellV addr len seq item0 item1 item2 unread b12 => Sys2Proof.Machine.execRspCellV addr len seq item0 item1 item2 unread b12 s
  | .rspTemps addr len seq items b12 => Sys2Proof.Machine.execRspTemps addr len seq items b12 s
  | .rspBal addr len cells b12 => Sys2Proof.Machine.execRspBal addr len cells b12 s
  | .rspAlarm addr len alarms b12 => Sys2Proof.Machine.execRspAlarm addr len alarms b12 s
  | .rspUnknown addr cmd len payload b12 => Sys2Proof.Machine.execRspUnknown addr cmd len payload b12 s
  -- the host operations
  | .opReset => Sys2Proof.Machine.execOpReset s
  | .opSetAddr a => Sys2Proof.Machine.execOpSetAddr a s
  | .opEncode c => Sys2Proof.Machine.execOpEncode c s
  | .opLoad bs => Sys2Proof.Machine.execOpLoad bs s
  | .opValidate => Sys2Proof.Machine.execOpValidate s
  | .opDecode => Sys2Proof.Machine.execOpDecode s

end Sys2Proof.Machine
end

