-- ==== Sys2Proof/Machine/Step.lean ====
section
/-! DEFINITION. One step of the machine: it runs the next operation that the host has issued, or stays idle. -/

namespace Sys2Proof.Machine

/-- The unit has no program: what runs next is the host's next operation (10_state.md R43, 20_memory.md R67), whole and
in one step (R68). With nothing issued the unit is idle (70_reset_and_hazards.md R232). -/
def step (s : State) : Host.Outcome State Fault Refusal :=
  match s.pending with
  | [] => .next s
  | op :: rest => exec op.instr { s with pending := rest }

/-- The state whose next step runs the table word `w` of `nbits` bits (notes/assumptions/4.md). -/
def State.withFetchWord (s : State) (nbits w : Nat) : State := s.placeFrame (tableBytes nbits w)

end Sys2Proof.Machine
end

