-- ==== Sys2Proof/Machine/Readout.lean ====
section
/-! DEFINITION. What the host reads out of the snapshot: alarm strings (41_field_decoders.md R148), values behind their
presence bits (10_state.md R27, 43_host_probe_and_poll.md R197) and physical quantities (41_field_decoders.md R150,
00_scope.md R11). Reading is no operation and changes nothing (40_frame_codec.md R110). -/

namespace Sys2Proof.Machine

/-- The alarm string of a byte, as the bytes of its 8 characters: character j shows bit 7 - j (R148). -/
def renderAlarm (b : Byte) : List Byte :=
  (List.range 8).map fun j => if b.getLsbD (7 - j) then alarmCh1 else alarmCh0

/-- The snapshot's eight alarm strings, once a 0x98 response has been decoded (R41, R148). -/
def Snapshot.alarmStrings (p : Snapshot) : Option (List (List Byte)) :=
  if p.p98 then some (p.alarm.toList.map renderAlarm) else none

/-- A slot's value, absent when its presence bit is 0: "marked absent, not zero" (R197). -/
def Slot.value {w : Nat} (x : Slot w) : Option (BitVec w) := if x.present then some x.val else none

/-- DI[n] (R37). -/
def Snapshot.input (p : Snapshot) (n : Fin 4) : Bool := p.dIn.getLsbD n.val
/-- DO[n] (R37). -/
def Snapshot.output (p : Snapshot) (n : Fin 4) : Bool := p.dOut.getLsbD n.val

/-- VOLT in volts (R150). -/
def Snapshot.volts (p : Snapshot) : Option Rat := if p.p90 then some ((p.volt.toNat : Rat) / 10) else none
/-- CURR in amperes (R150). -/
def Snapshot.amperes (p : Snapshot) : Option Rat := if p.p90 then some ((p.curr.toInt : Rat) / 10) else none
/-- SOC in percent (R150). -/
def Snapshot.percent (p : Snapshot) : Option Rat := if p.p90 then some ((p.soc.toNat : Rat) / 10) else none
/-- HICELL in volts (R150). -/
def Snapshot.highestVolts (p : Snapshot) : Option Rat := if p.p91 then some ((p.hiCell.toNat : Rat) / 1000) else none
/-- LOCELL in volts (R150). -/
def Snapshot.lowestVolts (p : Snapshot) : Option Rat := if p.p91 then some ((p.loCell.toNat : Rat) / 1000) else none
/-- TMAX in degrees C (R150). -/
def Snapshot.maxCelsius (p : Snapshot) : Option Int := if p.p92 then some p.tMax.toInt else none
/-- TMIN in degrees C (R150). -/
def Snapshot.minCelsius (p : Snapshot) : Option Int := if p.p92 then some p.tMin.toInt else none
/-- REMCAP in mAh (R150). -/
def Snapshot.milliAmpHours (p : Snapshot) : Option Nat := if p.p93 then some p.remCap.toNat else none
/-- CELLV[k] in volts (R150). -/
def Snapshot.cellVolts (p : Snapshot) (k : Fin 16) : Option Rat :=
  p.cellV[k].value.map fun x => (x.toNat : Rat) / 1000
/-- TEMP[k] in degrees C (R150). -/
def Snapshot.celsius (p : Snapshot) (k : Fin 4) : Option Int := p.temp[k].value.map BitVec.toInt

end Sys2Proof.Machine
end

