-- ==== Sys2Proof/Machine/HostContract.lean ====
section
/-! DEFINITION. The host's side as sequences of the unit's operations (43_host_probe_and_poll.md R191 to R195). The
host is no part of the unit (00_scope.md R4); these are its contract, over transport reads given as data: `none` is a
read or write that failed, `some bs` the bytes of the one read (DESIGN CHOICE, notes/assumptions/13.md). -/

namespace Sys2Proof.Machine

/-- Run issued operations one after another (20_memory.md R67). -/
def runOps : List HostOp → State → Host.Outcome State Fault Refusal
  | [], s => .next s
  | op :: ops, s =>
    match exec op.instr s with
    | .next t => runOps ops t
    | .fault f => .fault f
    | .refused r => .refused r

/-- One round trip of the poll cycle for code `c` (R193): on a transport failure nothing is loaded and nothing decoded
(R195). -/
def roundOps (c : Byte) : Option (List Byte) → List HostOp
  | none => [.encode c]
  | some bs => [.encode c, .load bs, .decode]

/-- The nine codes of a cycle in ascending order (R193, 92_eei_decisions.md D34). -/
def pollCodes : Vector Byte 9 := #v[0x90, 0x91, 0x92, 0x93, 0x94, 0x95, 0x96, 0x97, 0x98]

/-- The operations of one poll cycle: a round trip for each of the nine codes, with that code's read (R193). -/
def pollOps (reads : Vector (Option (List Byte)) 9) : List HostOp :=
  (List.finRange 9).flatMap fun k => roundOps pollCodes[k] reads[k]

/-! ### The poll loop (R193 to R195) -/

/-- Where the host is in its loop (R193, R194); no register of the unit records it. -/
inductive PollPhase where
  | init
  /-- Request `k` is written; its one read is awaited. -/
  | awaitResponse (k : Fin 9)
  /-- The bytes read are in RXBUF. -/
  | decode (k : Fin 9)
  /-- Request `k` is over, with or without a response. -/
  | nextRequest (k : Fin 9)
  | cycleComplete
deriving DecidableEq, Repr

/-- The polling host and the unit it drives. -/
structure Poller where
  phase : PollPhase
  /-- Cycles completed: the host's line counter (R197). -/
  cycles : Nat
  bfu : State
deriving DecidableEq, Repr

/-- Issue one operation and go on to a phase. -/
def issueThen (p : Poller) (op : HostOp) (phase : PollPhase) : Host.Outcome Poller Fault Refusal :=
  match exec op.instr p.bfu with
  | .next t => .next { p with phase := phase, bfu := t }
  | .fault f => .fault f
  | .refused r => .refused r

/-- One move of the host (R193), `reads c` being the reads of cycle `c`. A failed read skips load and decode (R195).
After CYCLE_COMPLETE it is INIT again: the loop has no end of its own. Which move issues OP_ENCODE is the model's
choice, and the inter-cycle delay takes no time (DESIGN CHOICE, notes/assumptions/13.md). -/
def pollStep (reads : Nat → Vector (Option (List Byte)) 9) (p : Poller) : Host.Outcome Poller Fault Refusal :=
  match p.phase with
  | .init => issueThen p (.encode pollCodes[0]) (.awaitResponse 0)
  | .awaitResponse k =>
    match (reads p.cycles)[k] with
    | none => .next { p with phase := .nextRequest k }
    | some bs => issueThen p (.load bs) (.decode k)
  | .decode k => issueThen p .decode (.nextRequest k)
  | .nextRequest k =>
    if h : k.val + 1 < 9 then issueThen p (.encode pollCodes[k.val + 1]) (.awaitResponse ⟨k.val + 1, h⟩)
    else .next { p with phase := .cycleComplete }
  | .cycleComplete => .next { p with phase := .init, cycles := p.cycles + 1 }

/-- A number of moves of the host. -/
def pollFor (reads : Nat → Vector (Option (List Byte)) 9) : Nat → Poller → Host.Outcome Poller Fault Refusal
  | 0, p => .next p
  | n + 1, p =>
    match pollStep reads p with
    | .next q => pollFor reads n q
    | .fault f => .fault f
    | .refused r => .refused r

/-! ### Discovery (R191, R192) -/

/-- The operations of the probe of one candidate (R191). -/
def probeOps : Option (List Byte) → List HostOp
  | none => [.encode probeCmd]
  | some bs => [.encode probeCmd, .load bs, .validate]

/-- The probe's acceptance condition after its read was loaded and validated (R191). -/
def State.acceptsProbe (s : State) : Bool :=
  decide (s.status.err = 0) && decide (s.hdr.cmd = probeCmd) && decide (s.hdr.addr = probeAddr)

/-- One probe: the state it leaves and whether the candidate is accepted. A failed write or read rejects, and so does a
read of more than RXCAP bytes, which the host cannot get (40_frame_codec.md R113). -/
def probe (s : State) (read : Option (List Byte)) : State × Bool :=
  match runOps (probeOps read) s with
  | .next t => (t, read.isSome && t.acceptsProbe)
  | .fault _ => (s, false)
  | .refused _ => (s, false)

/-- The state that probes of the candidates with these reads leave, one after another. -/
def afterProbes (reads : List (Option (List Byte))) (s : State) : State := reads.foldl (fun t r => (probe t r).1) s

/-- What discovery leaves: the accepted candidate, the candidates closed, in order, and the unit's state. -/
structure ScanResult where
  found : Option Nat
  closed : List Nat
  state : State
deriving DecidableEq, Repr

/-- The scan (R192): probe the candidates from identifier `n` up in ascending order, close each rejected one, stop at
the first acceptance. The spec gives neither the form of an identifier nor the size of the namespace
(91_not_in_source.md N21): that identifiers are consecutive natural numbers, one for each read, is the model's own
(DESIGN CHOICE, notes/assumptions/13.md). -/
def scanFrom : Nat → List (Option (List Byte)) → State → ScanResult
  | _, [], s => { found := none, closed := [], state := s }
  | n, read :: reads, s =>
    match probe s read with
    | (t, true) => { found := some n, closed := [], state := t }
    | (t, false) =>
      let r := scanFrom (n + 1) reads t
      { r with closed := n :: r.closed }

/-- How the host looks for its device (R192). -/
inductive Search where
  /-- No identifier was supplied: scan the namespace, numbered from 0 (DESIGN CHOICE, notes/assumptions/13.md), whose
  candidates answer `reads`. -/
  | scan (reads : List (Option (List Byte)))
  /-- An identifier was supplied: discovery is skipped and only that candidate is tried. -/
  | only (n : Nat) (read : Option (List Byte))
deriving DecidableEq, Repr

/-- Discovery, or the one candidate supplied in its place (R192). -/
def discover : Search → State → ScanResult
  | .scan reads, s => scanFrom 0 reads s
  | .only n read, s => scanFrom n [read] s

/-- The host after discovery. -/
inductive HostStart where
  /-- A candidate was accepted: the poll loop starts in INIT (R193). -/
  | polling (p : Poller)
  /-- DiscoveryExhausted (R192, 60_exceptions.md R210): a fatal, process-level failure; nothing is polled. -/
  | discoveryExhausted (bfu : State)
deriving DecidableEq, Repr

/-- Discovery and what follows it. That a rejected supplied candidate ends like an exhausted namespace is read from R192
by inference (DEDUCED, notes/assumptions/13.md). -/
def startHost (q : Search) (s : State) : HostStart :=
  let r := discover q s
  match r.found with
  | some _ => .polling { phase := .init, cycles := 0, bfu := r.state }
  | none => .discoveryExhausted r.state

end Sys2Proof.Machine
end

