-- ==== Sys2Proof/Safety.lean ====
section
/-! DEFINITION. What claims call safe: the invariants that every step keeps, and the states from which the machine goes
on. -/

namespace Sys2Proof.Machine

/-- The step goes on. -/
abbrev Answers (o : Host.Outcome State Fault Refusal) : Prop := ∃ t, o = .next t

/-- The three framing tests of OP_VALIDATE pass (40_frame_codec.md R114). -/
abbrev State.Framed (s : State) : Prop :=
  blockLen ≤ s.rxLen ∧ s.rxBuf.read 0 = syncByte ∧ s.rxBuf.read 1 = s.expAddr

/-- The parameters meet their constraints, both buffers have their canonical form inside their bounds, and RXLEN fits
the buffer (10_state.md R22, R23). -/
abbrev State.BuffersOk (s : State) : Prop :=
  s.cfg.ok = true ∧ s.txBuf.wf blockLen = true ∧ s.rxBuf.wf s.cfg.rxCap = true ∧ s.rxLen ≤ s.cfg.rxCap

/-- Every operation that waits is one that the host may issue (40_frame_codec.md R110, R113). -/
abbrev State.PendingOk (s : State) : Prop := ∀ op ∈ s.pending, op.instr.wellFormed s.cfg = true

/-- The error code (10_state.md R25: codes 6 and 7 are never written) and what it says of the other fields and of RA_*
(60_exceptions.md R205, R208). -/
abbrev State.StatusOk (s : State) : Prop :=
  s.status.err.toNat ≤ 5 ∧
  (s.status.hdrv = true → s.status.err = 0 ∨ 4 ≤ s.status.err.toNat) ∧
  (4 ≤ s.status.err.toNat → s.status.hdrv = true) ∧
  (s.status.unk = true → s.status.err = 0 ∧ s.status.hdrv = true ∧ s.ra = .clear) ∧
  (s.status.seqmis = true → s.status.err = 0 ∧ s.status.hdrv = true) ∧
  (s.status.err = 1 → s.status.csumok = false) ∧
  (s.status.err ≠ 0 → s.ra = .clear)

/-- The range of the reassembly registers (10_state.md R26, R43) and how STATUS.SEQMIS follows RA_SKIP
(42_reassembler.md R174). -/
abbrev State.ReassemblyOk (s : State) : Prop :=
  s.ra.idx.toNat ≤ 16 ∧ s.ra.rem.toNat ≤ 16 ∧ s.ra.skip.toNat ≤ s.ra.idx.toNat ∧
  (s.status.seqmis = true ↔ 0 < s.ra.skip.toNat)

/-- Absent fields and slots hold no telemetry: their data bits read 0 (10_state.md R27). -/
abbrev Snapshot.AbsentZero (p : Snapshot) : Prop :=
  (p.p90 = false → p.volt = 0 ∧ p.curr = 0 ∧ p.soc = 0) ∧
  (p.p91 = false → p.hiCell = 0 ∧ p.hiIdx = 0 ∧ p.loCell = 0 ∧ p.loIdx = 0) ∧
  (p.p92 = false → p.tMax = 0 ∧ p.tMin = 0) ∧
  (p.p93 = false → p.cdStat = 0 ∧ p.chgMos = 0 ∧ p.disMos = 0 ∧ p.remCap = 0) ∧
  (p.p94 = false → p.cellCnt = 0 ∧ p.sensCnt = 0 ∧ p.chgrStat = 0 ∧ p.loadStat = 0 ∧ p.dIn = 0 ∧ p.dOut = 0) ∧
  (p.p97 = false → p.balAct = false) ∧
  (p.p98 = false → p.alarm = Vector.replicate 8 0) ∧
  (∀ k : Fin 16, p.cellV[k].present = false → p.cellV[k].val = 0) ∧
  (∀ k : Fin 4, p.temp[k].present = false → p.temp[k].val = 0) ∧
  (∀ k : Fin 16, p.bal[k].present = false → p.bal[k].val = 0)

/-- The signed registers stay in their ranges (10_state.md R29, R32, R39), and BALACT is the OR of the balancing bytes
held (R40). -/
abbrev Snapshot.InRange (p : Snapshot) : Prop :=
  (-30000 ≤ p.curr.toInt ∧ p.curr.toInt ≤ 35535) ∧
  (-40 ≤ p.tMax.toInt ∧ p.tMax.toInt ≤ 215) ∧
  (-40 ≤ p.tMin.toInt ∧ p.tMin.toInt ≤ 215) ∧
  (∀ k : Fin 4, -40 ≤ p.temp[k].val.toInt ∧ p.temp[k].val.toInt ≤ 215) ∧
  (p.balAct = true ↔ ∃ k : Fin 16, p.bal[k].val ≠ 0)

/-- Two states that differ at most in received-buffer bytes from RXLEN up, which are no part of the response
(20_memory.md R65, R71). -/
def SameReceived (s t : State) : Prop :=
  t = { s with rxBuf := t.rxBuf } ∧ ∀ a, a < s.rxLen → t.rxBuf.read a = s.rxBuf.read a

/-! ### Reassembly said without a loop

What 42_reassembler.md R172 to R177 amount to, over the bytes of a response: `b a` is the byte at index a. -/

/-- The subframes among the first `n` whose sequence number is their position + 1 (R174). -/
def usedSubframes (b : Nat → Byte) (n : Nat) : List Nat :=
  (List.range n).filter fun i => decide ((b (13 * i + 4)).toNat = i + 1)

/-- The items of voltage subframe `i` (30_encoding.md R84). -/
def voltageItems (b : Nat → Byte) (i : Nat) : List Half :=
  [5, 7, 9].map fun o => BitVec.ofNat 16 (256 * (b (13 * i + o)).toNat + (b (13 * i + o + 1)).toNat)

/-- The items of temperature subframe `i` (30_encoding.md R85). -/
def temperatureItems (b : Nat → Byte) (i : Nat) : List (BitVec 9) :=
  [5, 6, 7, 8, 9, 10, 11].map fun o => BitVec.ofInt 9 (((b (13 * i + o)).toNat : Int) - 40)

/-- The items that are placed: those of the used subframes, in order, up to the count (R172, R173). -/
def placedItems {α : Type} (b : Nat → Byte) (items : Nat → List α) (n count : Nat) : List α :=
  ((usedSubframes b n).flatMap items).take count

/-- The slots after a reassembly: the placed items from slot 0 on, present; then the old slots up to the count; absent
from the count up (R177). -/
def SlotsAfter {w cap : Nat} (placed : List (BitVec w)) (count : Nat) (old new : Vector (Slot w) cap) : Prop :=
  ∀ k : Fin cap, new[k] =
    match placed[k.val]? with
    | some x => { val := x, present := true }
    | none => if k.val < count then old[k] else { val := 0, present := false }

/-- `e` subframes are examined of `n` whole ones, with `per` items each: before each of them items are still required,
and after them none is, or no subframe is left (R173). -/
def ExaminedCount (b : Nat → Byte) (per n count e : Nat) : Prop :=
  e ≤ n ∧ (∀ j, j < e → per * (usedSubframes b j).length < count) ∧
  (e = n ∨ count ≤ per * (usedSubframes b e).length)

/-- RA_* and STATUS.SEQMIS after a reassembly of `n` whole subframes that placed `placed` items (R174, R177). -/
def ReportsReassembly (b : Nat → Byte) (per n count placed : Nat) (t : State) : Prop :=
  ExaminedCount b per n count t.ra.idx.toNat ∧
  t.ra.rem.toNat = count - placed ∧
  t.ra.skip.toNat = t.ra.idx.toNat - (usedSubframes b t.ra.idx.toNat).length ∧
  (t.status.seqmis = true ↔ t.ra.skip.toNat ≠ 0)

end Sys2Proof.Machine
end

