-- ==== Sys2Proof/Certificates/Slice0/Obligations.lean ====
section
/-! DEFINITION. The statements for the provers. Next states are given as whole states wherever the rules give every
field, so that such a statement says an instruction's result, its completion and its frame (every register, flag and
buffer byte it leaves alone) at once. -/

open Sys2Proof Sys2Proof.Machine

/-! ### Encoding -/

/-- Every well-formed request row has 13 bytes (30_encoding.md R80, R98), and decode reads them as that row. That a
request frame, which matches a response row's mask too, reads as its request row is the model's choice (DESIGN CHOICE,
log entry 5). -/
def Obligations.RequestRowsRoundTrip : Prop :=
  ∀ (c : Config) (i : Instr), i.isRequest = true → i.wellFormed c = true →
    ∃ bs, encode i = some bs ∧ bs.length = 13 ∧ decode bs = .ok i

/-- Every well-formed response row, every operand at every value, has 13 bytes that start with 0xA5, and the receive
decoder reads them, whatever follows them, as that row (R82 to R93). -/
def Obligations.ResponseRowsRoundTrip : Prop :=
  ∀ (c : Config) (i : Instr) (rest : List Byte), i.isResponse = true → i.wellFormed c = true →
    ∃ bs, encode i = some bs ∧ bs.length = 13 ∧ bs[0]? = some 0xA5 ∧ decodeResponse (bs ++ rest) = .ok i

/-- The other direction (R82, R94): bytes are turned away exactly when there are fewer than 13 of them or byte 0 is not
0xA5, and otherwise read as a well-formed response row whose encoding is block 0. -/
def Obligations.ReceivedBytesDecode : Prop :=
  ∀ bs : List Byte,
    if bs.length < 13 then decodeResponse bs = .error .frameTooShort
    else if bs[0]? ≠ some 0xA5 then decodeResponse bs = .error .badSync
    else ∃ i, decodeResponse bs = .ok i ∧ i.isResponse = true ∧ (∀ c, i.wellFormed c = true) ∧
      encode i = some (bs.take 13)

/-- R94: each of the 247 codes outside 0x90 to 0x98 reads as the fallback row, and none of the nine does. -/
def Obligations.UnknownCodesAreTheOthers : Prop :=
  ∀ (bs : List Byte) (i : Instr), decodeResponse bs = .ok i →
    ((∃ addr cmd len payload b12, i = .rspUnknown addr cmd len payload b12) ↔
      ∀ c ∈ [0x90, 0x91, 0x92, 0x93, 0x94, 0x95, 0x96, 0x97, 0x98], bs[2]? ≠ some (c : Byte))

/-- Words written out from the spec's vectors read as the instructions they stand for (95_test_vectors.md V-D1, V-D10,
V-D29, V-S4, V-D60). That the first two, request frames, read as request rows and not as response rows is the model's
choice (DESIGN CHOICE, log entry 5). -/
def Obligations.SampleWordsDecode : Prop :=
  decode [0xA5, 0x40, 0x90, 0x08, 0, 0, 0, 0, 0, 0, 0, 0, 0x7D] = .ok .reqSoc ∧
  decode [0xA5, 0x40, 0x13, 0x08, 0, 0, 0, 0, 0, 0, 0, 0, 0x00] = .ok (.reqAny 0x13) ∧
  decode [0xA5, 0x01, 0x90, 0x08, 0x02, 0x0D, 0x02, 0x0D, 0x74, 0xCC, 0x03, 0x52, 0xF1]
    = .ok (.rspSoc 0x01 0x08 525 525 29900 850 0xF1) ∧
  decode [0xA5, 0x01, 0x93, 0x08, 0x01, 0x01, 0x01, 0x00, 0x00, 0x00, 0xC3, 0x50, 0x57]
    = .ok (.rspMos 0x01 0x08 1 1 1 0 50000 0x57) ∧
  decode [0xA5, 0x01, 0x95, 0x08, 0x01, 0x0C, 0xE4, 0x0C, 0xE5, 0x0C, 0xE6, 0x00, 0x17]
    = .ok (.rspCellV 0x01 0x08 1 3300 3301 3302 0 0x17) ∧
  decode [0xA5, 0x01, 0x99, 0x08, 0x01, 0x02, 0x03, 0x04, 0x05, 0x06, 0x07, 0x08, 0x6B]
    = .ok (.rspUnknown 0x01 0x99 0x08 #v[1, 2, 3, 4, 5, 6, 7, 8] 0x6B)

/-! ### The step and the operations -/

/-- R43, 20_memory.md R67: a step runs the host's next operation on the state without it, and does nothing when none is
issued (R232). The queue of issued operations is the model's own (log entry 2). -/
def Obligations.StepRunsTheNextOperation : Prop :=
  (∀ s : State, s.pending = [] → step s = .next s) ∧
  ∀ (s : State) (op : HostOp) (rest : List HostOp), s.pending = op :: rest →
    step s = exec op.instr { s with pending := rest }

/-- R118, R119, R140: on received bytes that pass validation OP_DECODE is the decoded response row, run on the state
that OP_VALIDATE leaves; on any others it is OP_VALIDATE. -/
def Obligations.DecodeRunsTheDecodedRow : Prop :=
  (∀ (s : State) (i : Instr), s.Framed → decodeResponse s.received = .ok i →
    ∃ v, exec .opValidate s = .next v ∧ exec .opDecode s = exec i v) ∧
  (∀ s : State, s.Framed → ∃ i, decodeResponse s.received = .ok i ∧ i.isResponse = true) ∧
  ∀ s : State, ¬s.Framed → exec .opDecode s = exec .opValidate s

/-- A step runs the decoded row (R43, R118, R119): with OP_DECODE issued over a buffer whose framing is right, the row
that the receive decoder reads, on the state that OP_VALIDATE leaves; with OP_ENCODE issued, the request row of its
code. Either way on the state without the issued operation. The queue of issued operations (log entry 2), the reading
of a request frame as its request row (log entry 5), a response row as the decoder inside OP_DECODE (log entry 3) and a
request row as the building of its frame (log entry 14) are the model's own. -/
def Obligations.StepRunsTheDecodedRow : Prop :=
  (∀ (s : State) (rest : List HostOp) (i : Instr), s.pending = .decode :: rest → s.Framed →
    decodeResponse s.received = .ok i →
    ∃ v, exec .opValidate { s with pending := rest } = .next v ∧ step s = exec i v) ∧
  ∀ (s : State) (rest : List HostOp) (c : Byte), s.pending = .encode c :: rest →
    decode (requestFrame c) = .ok (requestRow c) ∧ step s = exec (requestRow c) { s with pending := rest }

/-- R110: of the six operations only OP_LOAD of more than RXCAP bytes is refused; every other one ends in one step,
from every state. -/
def Obligations.OnlyOversizedLoadsAreRefused : Prop :=
  ∀ (op : HostOp) (s : State),
    (Answers (exec op.instr s) ∧ ∀ bs, op = .load bs → bs.length ≤ s.cfg.rxCap) ∨
    ∃ bs, op = .load bs ∧ s.cfg.rxCap < bs.length ∧
      exec op.instr s = .refused (.loadTooLong bs.length s.cfg.rxCap)

/-- R45, R230: OP_RESET leaves the reset state from every state, and that state has the listed values. Nothing is said
here of the parameters and of the host's waiting operations, which are the model's own fields (log entries 1 and 2). -/
def Obligations.ResetGivesTheResetValues : Prop :=
  (∀ s : State, ∃ t, exec .opReset s = .next t ∧ t = { State.reset with cfg := t.cfg, pending := t.pending }) ∧
  State.reset.expAddr = 0x01 ∧
  (∀ a, State.reset.txBuf.read a = 0x00 ∧ State.reset.rxBuf.read a = 0x00) ∧
  State.reset.rxLen = 0 ∧ State.reset.hdr = ⟨0, 0, 0, 0⟩ ∧
  State.reset.status = ⟨0, false, false, false, false⟩ ∧ State.reset.ra = ⟨0, 0, 0⟩ ∧
  (let p := State.reset.snap
   (p.p90 = false ∧ p.p91 = false ∧ p.p92 = false ∧ p.p93 = false ∧ p.p94 = false ∧ p.p97 = false ∧ p.p98 = false) ∧
   (p.volt = 0 ∧ p.curr = 0 ∧ p.soc = 0 ∧ p.hiCell = 0 ∧ p.hiIdx = 0 ∧ p.loCell = 0 ∧ p.loIdx = 0) ∧
   (p.tMax = 0 ∧ p.tMin = 0 ∧ p.cdStat = 0 ∧ p.chgMos = 0 ∧ p.disMos = 0 ∧ p.remCap = 0) ∧
   (p.cellCnt = 0 ∧ p.sensCnt = 0 ∧ p.chgrStat = 0 ∧ p.loadStat = 0 ∧ p.dIn = 0 ∧ p.dOut = 0 ∧ p.balAct = false) ∧
   (∀ k : Fin 16, p.cellV[k] = ⟨0, false⟩ ∧ p.bal[k] = ⟨0, false⟩) ∧
   (∀ k : Fin 4, p.temp[k] = ⟨0, false⟩) ∧ ∀ k : Fin 8, p.alarm[k] = 0)

/-- R111: OP_SETADDR writes EXPADDR and nothing else, for every address. -/
def Obligations.SetAddrWritesExpAddrOnly : Prop :=
  ∀ (a : Byte) (s : State), exec (.opSetAddr a) s = .next { s with expAddr := a }

/-- OP_ENCODE c leaves the 13-byte request frame of c in TXBUF, for every code, and writes nothing else (R80, R81, R112).
That the row REQ.ANY does the same is the model's reading (DEDUCED, log entry 14). -/
def Obligations.EncodeBuildsTheRequestFrame : Prop :=
  ∀ (c : Byte) (s : State), s.txBuf.wf 13 = true → ∀ i ∈ [Instr.opEncode c, Instr.reqAny c],
    ∃ t, exec i s = .next t ∧ t = { s with txBuf := t.txBuf } ∧
      t.txBuf.read 0 = 0xA5 ∧ t.txBuf.read 1 = 0x40 ∧ t.txBuf.read 2 = c ∧ t.txBuf.read 3 = 0x08 ∧
      (∀ k, 4 ≤ k → k ≤ 11 → t.txBuf.read k = 0x00) ∧
      (t.txBuf.read 12).toNat = ((List.range 12).map fun k => (t.txBuf.read k).toNat).sum % 256 ∧
      (t.txBuf.read 12).toNat = (0xED + c.toNat) % 256 ∧
      ∀ a, 13 ≤ a → t.txBuf.read a = s.txBuf.read a

/-- The nine request rows leave the bytes that R98 lists in TXBUF and write nothing else. R98 gives TXBUF after OP_ENCODE;
that running a request row builds its frame is the model's reading (DEDUCED, log entry 14). -/
def Obligations.NamedRequestRowsBuildTheirFrames : Prop :=
  ∀ s : State, s.txBuf.wf 13 = true → ∀ r ∈ ([(.reqSoc, 0x90, 0x7D), (.reqCellMinMax, 0x91, 0x7E),
      (.reqTempMinMax, 0x92, 0x7F), (.reqMos, 0x93, 0x80), (.reqStatus, 0x94, 0x81), (.reqCellV, 0x95, 0x82),
      (.reqTemps, 0x96, 0x83), (.reqBal, 0x97, 0x84), (.reqAlarm, 0x98, 0x85)] : List (Instr × Byte × Byte)),
    ∃ t, exec r.1 s = .next t ∧ t = { s with txBuf := t.txBuf } ∧
      (List.range 13).map t.txBuf.read = [0xA5, 0x40, r.2.1, 0x08, 0, 0, 0, 0, 0, 0, 0, 0, r.2.2] ∧
      ∀ a, 13 ≤ a → t.txBuf.read a = s.txBuf.read a

/-- OP_ENCODE of a code does what that code's request row does, and the code's frame reads as that row. What a request row
does is the model's reading of R98 and R112 (DEDUCED, log entry 14), and that its frame reads as a request row is the
model's choice (DESIGN CHOICE, log entry 5). -/
def Obligations.EncodeRunsTheRequestRow : Prop :=
  ∀ (c : Byte) (s : State), exec (.opEncode c) s = exec (requestRow c) s ∧
    decode (requestFrame c) = .ok (requestRow c)

/-- R113: OP_LOAD delivers its bytes to RXBUF from index 0, sets RXLEN and writes nothing else, the bytes past the
delivered ones included; more than RXCAP bytes have no step. -/
def Obligations.LoadDeliversTheBytes : Prop :=
  ∀ (bs : List Byte) (s : State), s.rxBuf.wf s.cfg.rxCap = true →
    (bs.length ≤ s.cfg.rxCap →
      ∃ t, exec (.opLoad bs) s = .next t ∧ t = { s with rxBuf := t.rxBuf, rxLen := bs.length } ∧
        (∀ (k : Nat) (hk : k < bs.length), t.rxBuf.read k = bs[k]) ∧
        ∀ a, bs.length ≤ a → t.rxBuf.read a = s.rxBuf.read a) ∧
    (s.cfg.rxCap < bs.length → exec (.opLoad bs) s = .refused (.loadTooLong bs.length s.cfg.rxCap))

/-- R114 to R117: what OP_VALIDATE leaves, in each of its four outcomes. -/
def Obligations.ValidateChecksTheFrame : Prop :=
  ∀ s : State, ∃ t, exec .opValidate s = .next t ∧
    t = { s with status := t.status, ra := ⟨0, 0, 0⟩, hdr := t.hdr } ∧
    t.status.unk = false ∧ t.status.seqmis = false ∧
    (t.status.csumok = true ↔ 13 ≤ s.rxLen ∧
      ((List.range 12).map fun k => (s.rxBuf.read k).toNat).sum % 256 = (s.rxBuf.read 12).toNat) ∧
    (if s.rxLen < 13 then t.status.err = 1 ∧ t.status.hdrv = false ∧ t.hdr = s.hdr
     else if s.rxBuf.read 0 ≠ 0xA5 then t.status.err = 2 ∧ t.status.hdrv = false ∧ t.hdr = s.hdr
     else if s.rxBuf.read 1 ≠ s.expAddr then t.status.err = 3 ∧ t.status.hdrv = false ∧ t.hdr = s.hdr
     else t.status.err = 0 ∧ t.status.hdrv = true ∧
       t.hdr = ⟨s.rxBuf.read 1, s.rxBuf.read 2, s.rxBuf.read 3, s.rxBuf.read 12⟩)

/-! ### The response rows -/

/-- Each single-block row but RSP.BAL, with its fields as operands, writes its own registers and presence bit, with the
values of R141 to R145, R147 and R149, and nothing else. Every form completes from every state. That a row runs alone,
from any state, validated or not, is the model's reading (DEDUCED, log entry 3): R140 runs a decoder inside OP_DECODE. -/
def Obligations.SingleBlockRowsWriteTheirRegisters : Prop :=
  (∀ (addr len b12 : Byte) (volt unread curr soc : Half) (s : State), ∃ c : BitVec 17,
    c.toInt = (curr.toNat : Int) - 30000 ∧
    exec (.rspSoc addr len volt unread curr soc b12) s
      = .next { s with snap := { s.snap with volt := volt, curr := c, soc := soc, p90 := true } }) ∧
  (∀ (addr len hiIdx loIdx b12 : Byte) (hiCell loCell unread : Half) (s : State),
    exec (.rspCellMinMax addr len hiCell hiIdx loCell loIdx unread b12) s
      = .next { s with snap :=
          { s.snap with hiCell := hiCell, hiIdx := hiIdx, loCell := loCell, loIdx := loIdx, p91 := true } }) ∧
  (∀ (addr len b12 : Byte) (payload : Vector Byte 8) (s : State), ∃ hi lo : BitVec 9,
    hi.toInt = (payload[s.cfg.offTMax].toNat : Int) - 40 ∧ lo.toInt = (payload[s.cfg.offTMin].toNat : Int) - 40 ∧
    exec (.rspTempMinMax addr len payload b12) s
      = .next { s with snap := { s.snap with tMax := hi, tMin := lo, p92 := true } }) ∧
  (∀ (addr len cd chg dis unread b12 : Byte) (cap : Word32) (s : State),
    exec (.rspMos addr len cd chg dis unread cap b12) s
      = .next { s with snap :=
          { s.snap with cdStat := cd, chgMos := chg, disMos := dis, remCap := cap, p93 := true } }) ∧
  (∀ (addr len b12 : Byte) (payload : Vector Byte 8) (s : State), ∃ di dq : BitVec 4,
    (∀ n : Fin 4, di.getLsbD n = payload[4].getLsbD n ∧ dq.getLsbD n = payload[4].getLsbD (4 + n)) ∧
    exec (.rspStatus addr len payload b12) s
      = .next { s with snap :=
          { s.snap with
            cellCnt := payload[0], sensCnt := payload[1], chgrStat := payload[s.cfg.offChgr]
            loadStat := payload[s.cfg.offLoad], dIn := di, dOut := dq, p94 := true } }) ∧
  (∀ (addr len b12 : Byte) (alarms : Vector Byte 8) (s : State),
    exec (.rspAlarm addr len alarms b12) s = .next { s with snap := { s.snap with alarm := alarms, p98 := true } }) ∧
  ∀ (addr cmd len b12 : Byte) (payload : Vector Byte 8) (s : State),
    exec (.rspUnknown addr cmd len payload b12) s = .next { s with status := { s.status with unk := true } }

/-- R146 for the row RSP.BAL. That the row runs alone, its operands being the bytes of block 0 and RXBUF giving the bytes
from index 13 up, and that a response is never shorter than the row's own 13 bytes (`max 13 s.rxLen`) is the model's
reading (DEDUCED, log entry 3). -/
def Obligations.BalancingRowReadsCellsInOrder : Prop :=
  ∀ (addr len b12 : Byte) (cells : Vector Byte 8) (s : State),
    let n := s.snap.cellCnt.toNat
    let cell (k : Nat) : Byte := (cells.toList ++ [b12])[k]?.getD (s.rxBuf.read (4 + k))
    (16 < n → exec (.rspBal addr len cells b12) s = .next { s with status := { s.status with err := 4 } }) ∧
    (n ≤ 16 → max 13 s.rxLen < 4 + n →
      exec (.rspBal addr len cells b12) s = .next { s with status := { s.status with err := 5 } }) ∧
    (n ≤ 16 → 4 + n ≤ max 13 s.rxLen →
      ∃ bal act, exec (.rspBal addr len cells b12) s
          = .next { s with snap := { s.snap with bal := bal, balAct := act, p97 := true } } ∧
        (∀ k : Fin 16, bal[k] = if k.val < n then ⟨cell k, true⟩ else ⟨0, false⟩) ∧
        (act = true ↔ ∃ k, k < n ∧ cell k ≠ 0))

/-- R171 and 60_exceptions.md R204: a count above the capacity stops D95, D96 and D97 before any write but the error
code, and D94 stores every count without an error. That the rows run alone, from any state, is the model's reading
(DEDUCED, log entry 3). -/
def Obligations.OversizedCountsRaiseCapacityExceeded : Prop :=
  (∀ (addr len seq unread b12 : Byte) (i0 i1 i2 : Half) (s : State), 16 < s.snap.cellCnt.toNat →
    exec (.rspCellV addr len seq i0 i1 i2 unread b12) s = .next { s with status := { s.status with err := 4 } }) ∧
  (∀ (addr len seq b12 : Byte) (items : Vector Byte 7) (s : State), 4 < s.snap.sensCnt.toNat →
    exec (.rspTemps addr len seq items b12) s = .next { s with status := { s.status with err := 4 } }) ∧
  (∀ (addr len b12 : Byte) (cells : Vector Byte 8) (s : State), 16 < s.snap.cellCnt.toNat →
    exec (.rspBal addr len cells b12) s = .next { s with status := { s.status with err := 4 } }) ∧
  ∀ (addr len b12 : Byte) (payload : Vector Byte 8) (s : State),
    ∃ t, exec (.rspStatus addr len payload b12) s = .next t ∧ t.status = s.status ∧
      t.snap.cellCnt = payload[0] ∧ t.snap.sensCnt = payload[1]

/-- R170 to R178 for the row RSP.CELLV: with a count within capacity the used subframes' items are placed densely, the
slots past the count are marked absent, and RA_* and SEQMIS report the run, RA_* being said where SEQMIS was 0 before,
as it is in every OP_DECODE. That the row runs alone, block 0 being its operands and later blocks RXBUF's, and the
bound `max 13 s.rxLen` are the model's reading (DEDUCED, log entry 3). -/
def Obligations.CellVoltageRowReassembles : Prop :=
  ∀ (addr len seq unread b12 : Byte) (i0 i1 i2 : Half) (s : State), s.snap.cellCnt.toNat ≤ 16 →
    let block : List Byte := [0xA5, addr, 0x95, len, seq, i0.extractLsb' 8 8, i0.extractLsb' 0 8, i1.extractLsb' 8 8,
      i1.extractLsb' 0 8, i2.extractLsb' 8 8, i2.extractLsb' 0 8, unread, b12]
    let b (a : Nat) : Byte := block[a]?.getD (s.rxBuf.read a)
    let n := min 16 (max 13 s.rxLen / 13)
    let count := s.snap.cellCnt.toNat
    let placed := placedItems b (voltageItems b) n count
    ∃ t cellV, exec (.rspCellV addr len seq i0 i1 i2 unread b12) s = .next t ∧
      t = { s with
        ra := t.ra, status := { s.status with seqmis := t.status.seqmis }, snap := { s.snap with cellV := cellV } } ∧
      SlotsAfter placed count s.snap.cellV cellV ∧
      (s.status.seqmis = false → ReportsReassembly b 3 n count placed.length t)

/-- R170 to R177, R179 for the row RSP.TEMPS, as for RSP.CELLV: what RA_* and SEQMIS report is said where SEQMIS was 0
before, and the row run alone, its block 0 and the bound `max 13 s.rxLen` are the model's reading (DEDUCED, log entry
3). -/
def Obligations.TemperatureRowReassembles : Prop :=
  ∀ (addr len seq b12 : Byte) (items : Vector Byte 7) (s : State), s.snap.sensCnt.toNat ≤ 4 →
    let block : List Byte := [0xA5, addr, 0x96, len, seq] ++ items.toList ++ [b12]
    let b (a : Nat) : Byte := block[a]?.getD (s.rxBuf.read a)
    let n := min 3 (max 13 s.rxLen / 13)
    let count := s.snap.sensCnt.toNat
    let placed := placedItems b (temperatureItems b) n count
    ∃ t temp, exec (.rspTemps addr len seq items b12) s = .next t ∧
      t = { s with
        ra := t.ra, status := { s.status with seqmis := t.status.seqmis }, snap := { s.snap with temp := temp } } ∧
      SlotsAfter placed count s.snap.temp temp ∧
      (s.status.seqmis = false → ReportsReassembly b 7 n count placed.length t)

/-! ### OP_DECODE, command by command, over the bytes of RXBUF -/

/-- R141: D90. -/
def Obligations.DecodeOfVoltageCurrentSoc : Prop :=
  ∀ s : State, s.Framed → s.rxBuf.read 2 = 0x90 →
    ∃ v t volt curr soc, exec .opValidate s = .next v ∧ exec .opDecode s = .next t ∧
      t = { v with snap := { s.snap with volt := volt, curr := curr, soc := soc, p90 := true } } ∧
      (volt : Half).toNat = 256 * (s.rxBuf.read 4).toNat + (s.rxBuf.read 5).toNat ∧
      (curr : BitVec 17).toInt = 256 * ((s.rxBuf.read 8).toNat : Int) + ((s.rxBuf.read 9).toNat : Int) - 30000 ∧
      (soc : Half).toNat = 256 * (s.rxBuf.read 10).toNat + (s.rxBuf.read 11).toNat

/-- R142: D91. -/
def Obligations.DecodeOfCellExtremes : Prop :=
  ∀ s : State, s.Framed → s.rxBuf.read 2 = 0x91 →
    ∃ v t hi lo, exec .opValidate s = .next v ∧ exec .opDecode s = .next t ∧
      t = { v with snap := { s.snap with
        hiCell := hi, hiIdx := s.rxBuf.read 6, loCell := lo, loIdx := s.rxBuf.read 9, p91 := true } } ∧
      (hi : Half).toNat = 256 * (s.rxBuf.read 4).toNat + (s.rxBuf.read 5).toNat ∧
      (lo : Half).toNat = 256 * (s.rxBuf.read 7).toNat + (s.rxBuf.read 8).toNat

/-- R143: D92, at the offsets OFF_TMAX and OFF_TMIN. -/
def Obligations.DecodeOfTemperatureExtremes : Prop :=
  ∀ s : State, s.Framed → s.rxBuf.read 2 = 0x92 →
    ∃ v t hi lo, exec .opValidate s = .next v ∧ exec .opDecode s = .next t ∧
      t = { v with snap := { s.snap with tMax := hi, tMin := lo, p92 := true } } ∧
      (hi : BitVec 9).toInt = ((s.rxBuf.read (4 + s.cfg.offTMax.val)).toNat : Int) - 40 ∧
      (lo : BitVec 9).toInt = ((s.rxBuf.read (4 + s.cfg.offTMin.val)).toNat : Int) - 40

/-- R144: D93. -/
def Obligations.DecodeOfMosAndCapacity : Prop :=
  ∀ s : State, s.Framed → s.rxBuf.read 2 = 0x93 →
    ∃ v t cap, exec .opValidate s = .next v ∧ exec .opDecode s = .next t ∧
      t = { v with snap := { s.snap with
        cdStat := s.rxBuf.read 4, chgMos := s.rxBuf.read 5, disMos := s.rxBuf.read 6, remCap := cap, p93 := true } } ∧
      (cap : Word32).toNat = (s.rxBuf.read 8).toNat * 2 ^ 24 + (s.rxBuf.read 9).toNat * 2 ^ 16
        + (s.rxBuf.read 10).toNat * 2 ^ 8 + (s.rxBuf.read 11).toNat

/-- R145, R152: D94, at the offsets OFF_CHGR and OFF_LOAD; the split of the io byte loses nothing. -/
def Obligations.DecodeOfStatusInformation : Prop :=
  ∀ s : State, s.Framed → s.rxBuf.read 2 = 0x94 →
    ∃ v t di dq, exec .opValidate s = .next v ∧ exec .opDecode s = .next t ∧
      t = { v with snap := { s.snap with
        cellCnt := s.rxBuf.read 4, sensCnt := s.rxBuf.read 5
        chgrStat := s.rxBuf.read (4 + s.cfg.offChgr.val), loadStat := s.rxBuf.read (4 + s.cfg.offLoad.val)
        dIn := di, dOut := dq, p94 := true } } ∧
      (∀ n : Fin 4, t.snap.input n = (s.rxBuf.read 8).getLsbD n ∧ t.snap.output n = (s.rxBuf.read 8).getLsbD (4 + n)) ∧
      (s.rxBuf.read 8).toNat = (di : BitVec 4).toNat + 16 * (dq : BitVec 4).toNat

/-- R146 and 60_exceptions.md R206: D97 over the received bytes, in each of its three outcomes. -/
def Obligations.DecodeOfBalancing : Prop :=
  ∀ s : State, s.Framed → s.rxBuf.read 2 = 0x97 →
    let n := s.snap.cellCnt.toNat
    ∃ v t, exec .opValidate s = .next v ∧ exec .opDecode s = .next t ∧
      (if 16 < n then t = { v with status := { v.status with err := 4 } }
       else if s.rxLen < 4 + n then t = { v with status := { v.status with err := 5 } }
       else ∃ bal act, t = { v with snap := { s.snap with bal := bal, balAct := act, p97 := true } } ∧
         (∀ k : Fin 16, bal[k] = if k.val < n then ⟨s.rxBuf.read (4 + k), true⟩ else ⟨0, false⟩) ∧
         (act = true ↔ ∃ k, k < n ∧ s.rxBuf.read (4 + k) ≠ 0))

/-- R147: D98. -/
def Obligations.DecodeOfAlarms : Prop :=
  ∀ s : State, s.Framed → s.rxBuf.read 2 = 0x98 →
    ∃ v t alarm, exec .opValidate s = .next v ∧ exec .opDecode s = .next t ∧
      t = { v with snap := { s.snap with alarm := alarm, p98 := true } } ∧
      ∀ k : Fin 8, (alarm : Vector Byte 8)[k] = s.rxBuf.read (4 + k)

/-- R149: DUNK, for each of the 247 other codes. -/
def Obligations.DecodeOfUnknownCodes : Prop :=
  ∀ s : State, s.Framed → ¬(0x90 ≤ (s.rxBuf.read 2).toNat ∧ (s.rxBuf.read 2).toNat ≤ 0x98) →
    ∃ v t, exec .opValidate s = .next v ∧ exec .opDecode s = .next t ∧
      t = { v with status := { v.status with unk := true } } ∧
      t.status.err = 0 ∧ t.status.hdrv = true ∧ t.hdr.cmd = s.rxBuf.read 2 ∧ t.snap = s.snap

/-- R172 to R178: D95 over the received bytes, whole blocks only, at most 16 of them. -/
def Obligations.DecodeOfCellVoltages : Prop :=
  ∀ s : State, s.Framed → s.rxBuf.read 2 = 0x95 →
    let n := min 16 (s.rxLen / 13)
    let count := s.snap.cellCnt.toNat
    let b := s.rxBuf.read
    let placed := placedItems b (voltageItems b) n count
    ∃ v t, exec .opValidate s = .next v ∧ exec .opDecode s = .next t ∧
      (if 16 < count then t = { v with status := { v.status with err := 4 } }
       else ∃ cellV, t = { v with
           ra := t.ra, status := { v.status with seqmis := t.status.seqmis }, snap := { s.snap with cellV := cellV } } ∧
         SlotsAfter placed count s.snap.cellV cellV ∧ ReportsReassembly b 3 n count placed.length t)

/-- R172 to R177, R179: D96 over the received bytes, at most three blocks. -/
def Obligations.DecodeOfTemperatures : Prop :=
  ∀ s : State, s.Framed → s.rxBuf.read 2 = 0x96 →
    let n := min 3 (s.rxLen / 13)
    let count := s.snap.sensCnt.toNat
    let b := s.rxBuf.read
    let placed := placedItems b (temperatureItems b) n count
    ∃ v t, exec .opValidate s = .next v ∧ exec .opDecode s = .next t ∧
      (if 4 < count then t = { v with status := { v.status with err := 4 } }
       else ∃ temp, t = { v with
           ra := t.ra, status := { v.status with seqmis := t.status.seqmis }, snap := { s.snap with temp := temp } } ∧
         SlotsAfter placed count s.snap.temp temp ∧ ReportsReassembly b 7 n count placed.length t)

/-- R181: one lost subframe desynchronises the rest. When subframe 0 is in order and every later one carries a number
too high by one, only the items of subframe 0 are placed, in slots 0 to 2, the later required slots keep their values,
and RA_* and SEQMIS show it. -/
def Obligations.LostSubframeDesynchronises : Prop :=
  ∀ s : State, s.Framed → s.rxBuf.read 2 = 0x95 → s.rxBuf.read 4 = 1 → 26 ≤ s.rxLen →
    3 < s.snap.cellCnt.toNat → s.snap.cellCnt.toNat ≤ 16 →
    (∀ i, 1 ≤ i → i < min 16 (s.rxLen / 13) → (s.rxBuf.read (13 * i + 4)).toNat = i + 2) →
    ∃ t, exec .opDecode s = .next t ∧ t.status.err = 0 ∧ t.status.seqmis = true ∧
      t.ra.idx.toNat = min 16 (s.rxLen / 13) ∧ t.ra.skip.toNat = min 16 (s.rxLen / 13) - 1 ∧
      t.ra.rem.toNat = s.snap.cellCnt.toNat - 3 ∧
      (∀ (k : Fin 16) (hk : k.val < 3), t.snap.cellV[k] = ⟨(voltageItems s.rxBuf.read 0)[k.val], true⟩) ∧
      (∀ k : Fin 16, 3 ≤ k.val → k.val < s.snap.cellCnt.toNat → t.snap.cellV[k] = s.snap.cellV[k])

/-! ### Errors -/

/-- R200, R201 to R204, R206 to R208: STATUS after OP_DECODE, cause by cause; the first cause in the order of the table
decides the code, and UNK and SEQMIS are set only where no error is. SEQMIS is set exactly when some examined subframe
(a whole one, within the maximum, reached while items were still required: 42_reassembler.md R173) has a number that is
not its position + 1 (R174). -/
def Obligations.DecodeErrorsHaveTheirCauses : Prop :=
  ∀ s : State, ∃ t, exec .opDecode s = .next t ∧
    let cmd := s.rxBuf.read 2
    let tooMany : Prop := ((cmd = 0x95 ∨ cmd = 0x97) ∧ 16 < s.snap.cellCnt.toNat) ∨
      (cmd = 0x96 ∧ 4 < s.snap.sensCnt.toNat)
    (t.status.err = 1 ↔ s.rxLen < 13) ∧
    (t.status.err = 2 ↔ 13 ≤ s.rxLen ∧ s.rxBuf.read 0 ≠ 0xA5) ∧
    (t.status.err = 3 ↔ 13 ≤ s.rxLen ∧ s.rxBuf.read 0 = 0xA5 ∧ s.rxBuf.read 1 ≠ s.expAddr) ∧
    (t.status.err = 4 ↔ s.Framed ∧ tooMany) ∧
    (t.status.err = 5 ↔ s.Framed ∧ ¬tooMany ∧ cmd = 0x97 ∧ s.rxLen < 4 + s.snap.cellCnt.toNat) ∧
    t.status.err.toNat ≤ 5 ∧
    (t.status.unk = true ↔ s.Framed ∧ ¬(0x90 ≤ cmd.toNat ∧ cmd.toNat ≤ 0x98)) ∧
    (t.status.seqmis = true ↔ s.Framed ∧ ¬tooMany ∧
      ((cmd = 0x95 ∧ ∃ i, i < min 16 (s.rxLen / 13) ∧ 3 * (usedSubframes s.rxBuf.read i).length < s.snap.cellCnt.toNat ∧
          (s.rxBuf.read (13 * i + 4)).toNat ≠ i + 1) ∨
       (cmd = 0x96 ∧ ∃ i, i < min 3 (s.rxLen / 13) ∧ 7 * (usedSubframes s.rxBuf.read i).length < s.snap.sensCnt.toNat ∧
          (s.rxBuf.read (13 * i + 4)).toNat ≠ i + 1))) ∧
    (t.status.seqmis = true → t.status.err = 0) ∧
    (t.status.hdrv = true ↔ s.Framed) ∧
    (t.status.csumok = true ↔ 13 ≤ s.rxLen ∧
      ((List.range 12).map fun k => (s.rxBuf.read k).toNat).sum % 256 = (s.rxBuf.read 12).toNat)

/-- R205: errors are precise. After an OP_VALIDATE or OP_DECODE that raised one, the state differs from the state before
it in STATUS, RA_* and, for codes 4 and 5, F_* only. -/
def Obligations.ErrorsArePrecise : Prop :=
  ∀ i ∈ [Instr.opValidate, Instr.opDecode], ∀ s t : State, exec i s = .next t → t.status.err ≠ 0 →
    t = { s with status := t.status, ra := ⟨0, 0, 0⟩, hdr := t.hdr } ∧
    (t.status.err.toNat ≤ 3 → t.hdr = s.hdr ∧ t.status.hdrv = false) ∧
    (4 ≤ t.status.err.toNat →
      t.hdr = ⟨s.rxBuf.read 1, s.rxBuf.read 2, s.rxBuf.read 3, s.rxBuf.read 12⟩ ∧ t.status.hdrv = true) ∧
    (t.status.csumok = true ↔ 13 ≤ s.rxLen ∧
      ((List.range 12).map fun k => (s.rxBuf.read k).toNat).sum % 256 = (s.rxBuf.read 12).toNat) ∧
    t.status.unk = false ∧ t.status.seqmis = false

/-! ### Who writes what -/

/-- R46, the writer table: what each operation, and each decoder inside OP_DECODE, leaves unchanged. R46 lets OP_RESET
write everything; that the parameters and the issued operations outlive it, as every operation, is the model's choice
(DESIGN CHOICE, log entries 1 and 2). -/
def Obligations.WriterTable : Prop :=
  (∀ (op : HostOp) (s t : State), exec op.instr s = .next t →
    t.cfg = s.cfg ∧ t.pending = s.pending ∧
    (op ≠ .reset → (∀ a, op ≠ .setAddr a) → t.expAddr = s.expAddr) ∧
    (op ≠ .reset → (∀ c, op ≠ .encode c) → t.txBuf = s.txBuf) ∧
    (op ≠ .reset → (∀ bs, op ≠ .load bs) → t.rxBuf = s.rxBuf ∧ t.rxLen = s.rxLen) ∧
    (op ≠ .reset → op ≠ .validate → op ≠ .decode → t.hdr = s.hdr ∧ t.status = s.status ∧ t.ra = s.ra) ∧
    (op ≠ .reset → op ≠ .decode → t.snap = s.snap)) ∧
  ∀ s t : State, exec .opDecode s = .next t →
    let cmd := s.rxBuf.read 2
    let p := s.snap
    let q := t.snap
    (cmd ≠ 0x90 → q.volt = p.volt ∧ q.curr = p.curr ∧ q.soc = p.soc ∧ q.p90 = p.p90) ∧
    (cmd ≠ 0x91 → q.hiCell = p.hiCell ∧ q.hiIdx = p.hiIdx ∧ q.loCell = p.loCell ∧ q.loIdx = p.loIdx ∧ q.p91 = p.p91) ∧
    (cmd ≠ 0x92 → q.tMax = p.tMax ∧ q.tMin = p.tMin ∧ q.p92 = p.p92) ∧
    (cmd ≠ 0x93 → q.cdStat = p.cdStat ∧ q.chgMos = p.chgMos ∧ q.disMos = p.disMos ∧ q.remCap = p.remCap ∧
      q.p93 = p.p93) ∧
    (cmd ≠ 0x94 → q.cellCnt = p.cellCnt ∧ q.sensCnt = p.sensCnt ∧ q.chgrStat = p.chgrStat ∧ q.loadStat = p.loadStat ∧
      q.dIn = p.dIn ∧ q.dOut = p.dOut ∧ q.p94 = p.p94) ∧
    (cmd ≠ 0x95 → q.cellV = p.cellV) ∧ (cmd ≠ 0x96 → q.temp = p.temp) ∧
    (cmd ≠ 0x97 → q.bal = p.bal ∧ q.balAct = p.balAct ∧ q.p97 = p.p97) ∧
    (cmd ≠ 0x98 → q.alarm = p.alarm ∧ q.p98 = p.p98) ∧
    (cmd ≠ 0x95 → cmd ≠ 0x96 → t.ra = ⟨0, 0, 0⟩ ∧ t.status.seqmis = false)

/-- 10_state.md R27: a group's presence bit, once 1, is cleared by no step but OP_RESET. -/
def Obligations.GroupPresenceIsKept : Prop :=
  ∀ s t : State, step s = .next t → s.pending.head? ≠ some .reset →
    (s.snap.p90 = true → t.snap.p90 = true) ∧ (s.snap.p91 = true → t.snap.p91 = true) ∧
    (s.snap.p92 = true → t.snap.p92 = true) ∧ (s.snap.p93 = true → t.snap.p93 = true) ∧
    (s.snap.p94 = true → t.snap.p94 = true) ∧ (s.snap.p97 = true → t.snap.p97 = true) ∧
    (s.snap.p98 = true → t.snap.p98 = true)

/-! ### What cannot matter -/

/-- 20_memory.md R65, R71: stale bytes cannot leak. Two states that agree but for RXBUF bytes at or past RXLEN answer
alike and stay so related, whatever the host issues. -/
def Obligations.StaleBytesAreNeverRead : Prop :=
  ∀ s t s' : State, s.BuffersOk → t.BuffersOk → SameReceived s t → step s = .next s' →
    ∃ t', step t = .next t' ∧ SameReceived s' t'

/-- 30_encoding.md R96 (d): outside command 0x97, header bytes and byte 12 of blocks 1 and up change nothing. -/
def Obligations.LaterHeadersDoNotMatter : Prop :=
  ∀ s t : State, t = { s with rxBuf := t.rxBuf } →
    (∀ a, a < 13 ∨ (4 ≤ a % 13 ∧ a % 13 ≤ 11) → t.rxBuf.read a = s.rxBuf.read a) → s.rxBuf.read 2 ≠ 0x97 →
    ∃ s', exec .opDecode s = .next s' ∧ exec .opDecode t = .next { s' with rxBuf := t.rxBuf }

/-- R96 (a), (b), 40_frame_codec.md R117: the length byte and byte 12 of block 0 never change what is accepted or
decoded. The two next states differ in RXBUF, as the two states before do, in F_LEN, F_B12 and CSUMOK, and in nothing
else (cell 8 of 0x97 is byte 12, so a 0x97 response with more than 8 cells is left out). -/
def Obligations.LengthAndLastByteDoNotMatter : Prop :=
  ∀ s t : State, t = { s with rxBuf := t.rxBuf } →
    (∀ a, a ≠ 3 → a ≠ 12 → t.rxBuf.read a = s.rxBuf.read a) → (s.rxBuf.read 2 = 0x97 → s.snap.cellCnt.toNat ≤ 8) →
    ∃ s' t', exec .opDecode s = .next s' ∧ exec .opDecode t = .next t' ∧
      t' = { s' with
        rxBuf := t.rxBuf, status := { s'.status with csumok := t'.status.csumok }
        hdr := { s'.hdr with len := t'.hdr.len, b12 := t'.hdr.b12 } }

/-- 20_memory.md R65: an OP_DECODE repeated writes the same values again. -/
def Obligations.DecodeIsIdempotent : Prop :=
  ∀ s t : State, exec .opDecode s = .next t → exec .opDecode t = .next t

/-! ### Invariants -/

/-- The reset state (R45) meets every invariant below. Its parameters and its empty list of issued operations, on which
BuffersOk and PendingOk rest, are the model's own (DESIGN CHOICE, log entries 1 and 2). -/
def Obligations.ResetMeetsTheInvariants : Prop :=
  State.reset.BuffersOk ∧ State.reset.PendingOk ∧ State.reset.StatusOk ∧ State.reset.ReassemblyOk ∧
  State.reset.snap.AbsentZero ∧ State.reset.snap.InRange

/-- Every step keeps the buffers' bounds (10_state.md R22, R23), their canonical form and the parameters. The canonical
form (DEDUCED, log entry 7) and parameters that no operation writes (DESIGN CHOICE, log entry 1) are the model's own. -/
def Obligations.StepKeepsTheBuffers : Prop :=
  ∀ s t : State, s.BuffersOk → step s = .next t → t.BuffersOk ∧ t.cfg = s.cfg

/-- Every step keeps STATUS legal (10_state.md R25, 60_exceptions.md R205, R208). -/
def Obligations.StepKeepsStatusLegal : Prop :=
  ∀ s t : State, s.StatusOk → step s = .next t → t.StatusOk

/-- Every step keeps RA_* in range and SEQMIS in line with RA_SKIP (10_state.md R26, R43). -/
def Obligations.StepKeepsReassemblyInRange : Prop :=
  ∀ s t : State, s.ReassemblyOk → step s = .next t → t.ReassemblyOk

/-- Every step keeps absent fields and slots at 0 (10_state.md R27). -/
def Obligations.StepKeepsAbsentZero : Prop :=
  ∀ s t : State, s.snap.AbsentZero → step s = .next t → t.snap.AbsentZero

/-- Every step keeps the signed registers in their ranges and BALACT the OR of the balancing bytes (10_state.md R29,
R32, R39, R40). -/
def Obligations.StepKeepsRegisterRanges : Prop :=
  ∀ s t : State, s.snap.InRange → step s = .next t → t.snap.InRange

/-- R110, 60_exceptions.md R209: while every issued operation is one that the host may issue, the machine answers for
any number of steps; no error stops it. -/
def Obligations.MachineNeverStops : Prop :=
  ∀ (s : State), s.BuffersOk → s.PendingOk → ∀ k, ∃ t, Sys2Proof.core.run k s = .next t ∧ t.BuffersOk ∧ t.PendingOk

/-! ### Read-out and the host's contract -/

/-- R120: the loop-back property, for every code and from every state; with any other expected address the same frame
is turned away; and OP_DECODE decodes it like a response. -/
def Obligations.LoopBack : Prop :=
  ∀ (s : State) (a c : Byte), s.BuffersOk →
    ∃ t1 t2 t3 v x, exec (.opSetAddr a) s = .next t1 ∧ exec (.opEncode c) t1 = .next t2 ∧
      exec (.opLoad ((List.range 13).map t2.txBuf.read)) t2 = .next t3 ∧ exec .opValidate t3 = .next v ∧
      (a = 0x40 → v.status = ⟨0, true, false, false, true⟩ ∧ v.hdr = ⟨0x40, c, 0x08, x⟩ ∧
        x.toNat = (0xED + c.toNat) % 256 ∧ exec .opDecode t3 = exec (responseRow (requestFrame c)) v) ∧
      (a ≠ 0x40 → v.status = ⟨3, false, false, false, true⟩ ∧ v.hdr = s.hdr)

/-- R148: the alarm strings, as bytes. That '0' and '1' are the bytes 0x30 and 0x31 is the spec's general knowledge
(log entry 8). -/
def Obligations.AlarmStrings : Prop :=
  (∀ b : Byte, (renderAlarm b).length = 8 ∧
    ∀ j, j < 8 → (renderAlarm b)[j]? = some (if b.getLsbD (7 - j) then 0x31 else 0x30)) ∧
  ∀ (s : State), s.Framed → s.rxBuf.read 2 = 0x98 → ∃ t strings, exec .opDecode s = .next t ∧
    t.snap.alarmStrings = some strings ∧ strings = (List.range 8).map fun k => renderAlarm (s.rxBuf.read (4 + k))

/-- R150: physical quantities are the register's integer times its unit, for every register of its table, after 0x95 and
0x96 within capacity. A cell or sensor slot reads as its placed item, the slots not reached read as before, and those from the count up as absent (R177). -/
def Obligations.PhysicalQuantities : Prop :=
  ∀ s t : State, s.Framed → exec .opDecode s = .next t →
    let u16 (a : Nat) : Rat := 256 * ((s.rxBuf.read a).toNat : Rat) + ((s.rxBuf.read (a + 1)).toNat : Rat)
    (s.rxBuf.read 2 = 0x90 → t.snap.volts = some (u16 4 / 10) ∧ t.snap.amperes = some ((u16 8 - 30000) / 10) ∧
      t.snap.percent = some (u16 10 / 10)) ∧
    (s.rxBuf.read 2 = 0x91 → t.snap.highestVolts = some (u16 4 / 1000) ∧ t.snap.lowestVolts = some (u16 7 / 1000)) ∧
    (s.rxBuf.read 2 = 0x92 →
      t.snap.maxCelsius = some (((s.rxBuf.read (4 + s.cfg.offTMax.val)).toNat : Int) - 40) ∧
      t.snap.minCelsius = some (((s.rxBuf.read (4 + s.cfg.offTMin.val)).toNat : Int) - 40)) ∧
    (s.rxBuf.read 2 = 0x93 → t.snap.milliAmpHours = some ((s.rxBuf.read 8).toNat * 2 ^ 24
      + (s.rxBuf.read 9).toNat * 2 ^ 16 + (s.rxBuf.read 10).toNat * 2 ^ 8 + (s.rxBuf.read 11).toNat)) ∧
    (s.rxBuf.read 2 = 0x95 → s.snap.cellCnt.toNat ≤ 16 → ∀ k : Fin 16,
      let placed := placedItems s.rxBuf.read (fun i => [5, 7, 9].map fun o => u16 (13 * i + o) / 1000)
        (min 16 (s.rxLen / 13)) s.snap.cellCnt.toNat
      t.snap.cellVolts k =
        placed[k.val]?.or (if k.val < s.snap.cellCnt.toNat then s.snap.cellVolts k else none)) ∧
    (s.rxBuf.read 2 = 0x96 → s.snap.sensCnt.toNat ≤ 4 → ∀ k : Fin 4,
      let placed := placedItems s.rxBuf.read (fun i => [5, 6, 7, 8, 9, 10, 11].map fun o =>
        ((s.rxBuf.read (13 * i + o)).toNat : Int) - 40) (min 3 (s.rxLen / 13)) s.snap.sensCnt.toNat
      t.snap.celsius k =
        placed[k.val]?.or (if k.val < s.snap.sensCnt.toNat then s.snap.celsius k else none))

/-- 43_host_probe_and_poll.md R195: a failed round trip leaves the snapshot alone. With no read nothing but TXBUF
changes; with a frame that raises an error every snapshot register keeps its value. -/
def Obligations.FailedRoundTripKeepsTheSnapshot : Prop :=
  (∀ (c : Byte) (s : State), ∃ t, runOps (roundOps c none) s = .next t ∧ t = { s with txBuf := t.txBuf }) ∧
  ∀ (c : Byte) (bs : List Byte) (s : State), bs.length ≤ s.cfg.rxCap →
    ∃ t, runOps (roundOps c (some bs)) s = .next t ∧ (t.status.err ≠ 0 → t.snap = s.snap)

/-- R191: with EXPADDR at its reset value a candidate is accepted exactly when its one read gives a block of at least
13 bytes with sync 0xA5, address 0x01 and command 0x90. -/
def Obligations.ProbeAcceptsExactly : Prop :=
  ∀ (bs : List Byte) (s : State), s.BuffersOk → s.expAddr = 0x01 → bs.length ≤ s.cfg.rxCap →
    ((probe s none).2 = false ∧
     ((probe s (some bs)).2 = true ↔
       13 ≤ bs.length ∧ bs[0]? = some 0xA5 ∧ bs[1]? = some 0x01 ∧ bs[2]? = some 0x90))

/-- R192: the scan stops at the first acceptance. `found` is some n exactly when the probe of candidate n, from the
state that the earlier probes left, accepts and every earlier one rejected, and none exactly when all rejected; the
rejected ones, and only they, are closed, once each in ascending order; no later candidate is touched. With EXPADDR at
0x01 and reads within RXCAP the accepting reads are those of R191. Identifiers as consecutive natural numbers, one for
each read, and the outcome of a read longer than RXCAP are the model's choice (DESIGN CHOICE, log entry 13). -/
def Obligations.ScanClosesExactlyTheRejected : Prop :=
  ∀ (reads : List (Option (List Byte))) (s : State),
    let r := scanFrom 0 reads s
    let accepts (n : Nat) : Prop :=
      ∃ read, reads[n]? = some read ∧ (probe (afterProbes (reads.take n) s) read).2 = true
    let right (n : Nat) : Prop := ∃ bs, reads[n]? = some (some bs) ∧
      13 ≤ bs.length ∧ bs[0]? = some 0xA5 ∧ bs[1]? = some 0x01 ∧ bs[2]? = some 0x90
    r.closed = List.range (r.found.getD reads.length) ∧
    (∀ n, r.found = some n ↔ accepts n ∧ ∀ m, m < n → ¬accepts m) ∧
    (r.found = none ↔ ∀ n, n < reads.length → ¬accepts n) ∧
    r.state = afterProbes (reads.take ((r.found.map (· + 1)).getD reads.length)) s ∧
    (s.BuffersOk → s.expAddr = 0x01 → (∀ bs, some bs ∈ reads → bs.length ≤ s.cfg.rxCap) →
      (∀ n, accepts n ↔ right n) ∧ (∀ n, r.found = some n ↔ right n ∧ ∀ m, m < n → ¬right m) ∧
      (r.found = none ↔ ∀ n, n < reads.length → ¬right n))

/-- R192, R193, R210: without a supplied identifier discovery scans; a supplied one skips discovery and is the only
candidate tried. The host polls from INIT after an acceptance and otherwise ends in DiscoveryExhausted. Scanning from
identifier 0 is the model's choice (DESIGN CHOICE, log entry 13), and that a rejected supplied candidate ends in the
same failure is its reading (DEDUCED, log entry 13). -/
def Obligations.DiscoveryOrTheOneSuppliedCandidate : Prop :=
  ∀ (s : State),
    (∀ reads, discover (.scan reads) s = scanFrom 0 reads s) ∧
    (∀ n read, let r := discover (.only n read) s
      r.state = (probe s read).1 ∧
      ((probe s read).2 = true → r.found = some n ∧ r.closed = []) ∧
      ((probe s read).2 = false → r.found = none ∧ r.closed = [n])) ∧
    ∀ q : Search, let r := discover q s
      (∀ n, r.found = some n → startHost q s = .polling ⟨.init, 0, r.state⟩) ∧
      (r.found = none → startHost q s = .discoveryExhausted r.state)

/-- R193, R195: a cycle issues the nine codes in ascending order, each once, whichever reads fail, and does the round
trips of `pollOps`; then the loop stands in INIT again, one cycle further. Which moves issue the operations, and that
the delay is no move, is the model's choice, and so is the order of the codes by the spec's own mark (DESIGN CHOICE,
log entry 13). -/
def Obligations.PollCycleLoops : Prop :=
  ∀ (reads : Nat → Vector (Option (List Byte)) 9) (c : Nat) (s : State),
    (∀ (k : Fin 9) (bs : List Byte), (reads c)[k] = some bs → bs.length ≤ s.cfg.rxCap) →
    ((pollOps (reads c)).filterMap fun op => match op with | .encode x => some x | _ => none)
      = [0x90, 0x91, 0x92, 0x93, 0x94, 0x95, 0x96, 0x97, 0x98] ∧
    ∃ t, runOps (pollOps (reads c)) s = .next t ∧
      pollFor reads (20 + (reads c).toList.countP Option.isSome) ⟨.init, c, s⟩ = .next ⟨.init, c + 1, t⟩

/-- R193: "The cycle never terminates on its own". From every phase, with reads within RXCAP, the host goes on for any
number of moves, and completes a cycle at least once in every 29 of them. That moves are counted so is the model's
choice (DESIGN CHOICE, log entry 13). -/
def Obligations.PollNeverEnds : Prop :=
  ∀ (reads : Nat → Vector (Option (List Byte)) 9) (p : Poller), p.bfu.BuffersOk →
    (∀ (c : Nat) (k : Fin 9) (bs : List Byte), (reads c)[k] = some bs → bs.length ≤ p.bfu.cfg.rxCap) →
    ∀ n, ∃ q, pollFor reads n p = .next q ∧ q.bfu.BuffersOk ∧ q.bfu.cfg = p.bfu.cfg ∧ p.cycles + n / 29 ≤ q.cycles
end

