-- ==== Sys2Proof/Laws/Memory.lean ====
section
/-! SUPPORT. The buffers: read after write, and that every memory operation keeps the canonical form. -/

namespace Sys2Proof.Machine

@[simp] theorem Memory.read_nil (a : Nat) : Memory.read [] a = Memory.unlisted := rfl

/-- Below the lowest listed address everything reads as unlisted. -/
theorem Memory.read_below {cap lo : Nat} {m : Memory} (h : Memory.wfFrom cap lo m = true) {a : Nat} (ha : a < lo) :
    Memory.read m a = Memory.unlisted := by
  induction m generalizing lo with
  | nil => rfl
  | cons c m ih =>
    obtain ⟨k, b⟩ := c
    simp only [Memory.wfFrom, Bool.and_eq_true, decide_eq_true_eq] at h
    obtain ⟨⟨⟨hk, _⟩, _⟩, hm⟩ := h
    have hne : k ≠ a := by omega
    simp [Memory.read, hne, ih hm (by omega : a < k + 1)]

/-- A well-formed buffer reads 0 past its end. -/
theorem Memory.read_beyond {cap lo : Nat} {m : Memory} (h : Memory.wfFrom cap lo m = true) {a : Nat} (ha : cap ≤ a) :
    Memory.read m a = Memory.unlisted := by
  induction m generalizing lo with
  | nil => rfl
  | cons c m ih =>
    obtain ⟨k, b⟩ := c
    simp only [Memory.wfFrom, Bool.and_eq_true, decide_eq_true_eq] at h
    obtain ⟨⟨⟨_, hk⟩, _⟩, hm⟩ := h
    have hne : k ≠ a := by omega
    simp [Memory.read, hne, ih hm]

theorem Memory.wfFrom_mono {cap lo lo' : Nat} {m : Memory} (h : Memory.wfFrom cap lo m = true) (hl : lo' ≤ lo) :
    Memory.wfFrom cap lo' m = true := by
  cases m with
  | nil => rfl
  | cons c m =>
    obtain ⟨k, b⟩ := c
    simp only [Memory.wfFrom, Bool.and_eq_true, decide_eq_true_eq] at h ⊢
    exact ⟨⟨⟨by omega, h.1.1.2⟩, h.1.2⟩, h.2⟩

/-- A write keeps the canonical form. -/
theorem Memory.write_wfFrom {cap lo : Nat} {m : Memory} (h : Memory.wfFrom cap lo m = true) {a : Nat} (v : Byte)
    (hlo : lo ≤ a) (hcap : a < cap) : Memory.wfFrom cap lo (Memory.write m a v) = true := by
  induction m generalizing lo with
  | nil => by_cases hv : v = Memory.unlisted <;> simp [Memory.write, Memory.wfFrom, hv, hlo, hcap]
  | cons c m ih =>
    obtain ⟨k, b⟩ := c
    simp only [Memory.wfFrom, Bool.and_eq_true, decide_eq_true_eq] at h
    obtain ⟨⟨⟨hk, hkc⟩, hb⟩, hm⟩ := h
    unfold Memory.write
    split
    · split
      · simp [Memory.wfFrom, hk, hkc, hb, hm]
      · rename_i hak hv
        have : a + 1 ≤ k := hak
        simp [Memory.wfFrom, hlo, hcap, hv, hkc, hb, hm, this]
    · split
      · split
        · exact Memory.wfFrom_mono hm (by omega)
        · rename_i hv
          simp [Memory.wfFrom, hk, hkc, hv, hm]
      · simp [Memory.wfFrom, hk, hkc, hb, ih hm (by omega : k + 1 ≤ a)]

/-- A write keeps the canonical form of a whole buffer. -/
theorem Memory.write_wf {cap : Nat} {m : Memory} (h : m.wf cap = true) {a : Nat} (v : Byte) (ha : a < cap) :
    (m.write a v).wf cap = true :=
  Memory.write_wfFrom h v (Nat.zero_le a) ha

/-- Storing consecutive bytes inside the buffer keeps the canonical form. -/
theorem Memory.store_wf {cap : Nat} (bs : List Byte) {m : Memory} (h : m.wf cap = true) {a : Nat}
    (ha : a + bs.length ≤ cap) : (m.store a bs).wf cap = true := by
  induction bs generalizing m a with
  | nil => exact h
  | cons v vs ih =>
    simp only [List.length_cons] at ha
    exact ih (Memory.write_wf h v (by omega)) (by omega)

/-- Read after write, at the same place and at every other, in a sorted buffer. -/
theorem Memory.read_write_from {cap lo : Nat} {m : Memory} (h : Memory.wfFrom cap lo m = true) (a b : Nat) (v : Byte) :
    Memory.read (Memory.write m a v) b = if b = a then v else Memory.read m b := by
  induction m generalizing lo with
  | nil =>
    by_cases hv : v = Memory.unlisted
    · by_cases hb : b = a <;> simp [Memory.write, Memory.read, hv, hb]
    · by_cases hb : b = a
      · simp [Memory.write, Memory.read, hv, hb]
      · have : a ≠ b := fun e => hb e.symm
        simp [Memory.write, Memory.read, hv, hb, this]
  | cons c m ih =>
    obtain ⟨k, x⟩ := c
    simp only [Memory.wfFrom, Bool.and_eq_true, decide_eq_true_eq] at h
    obtain ⟨⟨⟨hk, hkc⟩, hx⟩, hm⟩ := h
    by_cases hak : a < k
    · by_cases hv : v = Memory.unlisted
      · by_cases hb : b = a
        · subst hb
          have hne : k ≠ b := by omega
          simp [Memory.write, hak, hv, Memory.read, hne, Memory.read_below hm (by omega : b < k + 1)]
        · simp [Memory.write, hak, hv, hb]
      · by_cases hb : b = a
        · simp [Memory.write, hak, hv, Memory.read, hb]
        · have : a ≠ b := fun e => hb e.symm
          simp [Memory.write, hak, hv, Memory.read, hb, this]
    · by_cases hka : k = a
      · subst hka
        by_cases hv : v = Memory.unlisted
        · by_cases hb : b = k
          · subst hb
            simp [Memory.write, hv, Memory.read_below hm (by omega : b < b + 1)]
          · have : k ≠ b := fun e => hb e.symm
            simp [Memory.write, hv, hb, Memory.read, this]
        · by_cases hb : b = k
          · simp [Memory.write, hv, hb, Memory.read]
          · have : k ≠ b := fun e => hb e.symm
            simp [Memory.write, hv, hb, Memory.read, this]
      · by_cases hb : k = b
        · subst hb
          simp [Memory.write, hak, hka, Memory.read]
        · simp [Memory.write, hak, hka, Memory.read, hb, ih hm]

/-- Read after write. -/
theorem Memory.read_write {cap : Nat} {m : Memory} (h : m.wf cap = true) (a b : Nat) (v : Byte) :
    (m.write a v).read b = if b = a then v else m.read b :=
  Memory.read_write_from h a b v

/-- Read after a store: the stored bytes in their places, everything else as before. -/
theorem Memory.read_store {cap : Nat} (bs : List Byte) {m : Memory} (h : m.wf cap = true) {a : Nat}
    (ha : a + bs.length ≤ cap) (b : Nat) :
    (m.store a bs).read b = if a ≤ b ∧ b < a + bs.length then byteAt bs (b - a) else m.read b := by
  induction bs generalizing m a with
  | nil =>
    have : ¬(a ≤ b ∧ b < a) := by omega
    simp [Memory.store, this]
  | cons v vs ih =>
    simp only [List.length_cons] at ha ⊢
    rw [Memory.store, ih (Memory.write_wf h v (by omega)) (by omega), Memory.read_write h]
    by_cases hb : b = a
    · subst hb
      simp [byteAt]
    · by_cases hin : a + 1 ≤ b ∧ b < a + 1 + vs.length
      · have h2 : a ≤ b ∧ b < a + (vs.length + 1) := by omega
        obtain ⟨n, hn⟩ : ∃ n, b - a = n + 1 := ⟨b - a - 1, by omega⟩
        have h3 : b - (a + 1) = n := by omega
        simp [hin, h2, hn, h3, byteAt]
      · have h2 : ¬(a ≤ b ∧ b < a + (vs.length + 1)) := by omega
        rw [if_neg hin, if_neg h2, if_neg hb]

/-- The empty buffer has the canonical form. -/
theorem Memory.nil_wf (cap : Nat) : Memory.wf cap [] = true := rfl

end Sys2Proof.Machine
end

