-- ==== Sys2Proof/Laws/State.lean ====
section
/-! SUPPORT. One lemma per field and update of State: what each shared update leaves in each field. -/

namespace Sys2Proof.Machine

/-! ### loadRx -/

@[simp] theorem State.loadRx_cfg (s : State) (bs : List Byte) : (s.loadRx bs).cfg = s.cfg := rfl
@[simp] theorem State.loadRx_pending (s : State) (bs : List Byte) : (s.loadRx bs).pending = s.pending := rfl
@[simp] theorem State.loadRx_expAddr (s : State) (bs : List Byte) : (s.loadRx bs).expAddr = s.expAddr := rfl
@[simp] theorem State.loadRx_txBuf (s : State) (bs : List Byte) : (s.loadRx bs).txBuf = s.txBuf := rfl
@[simp] theorem State.loadRx_rxBuf (s : State) (bs : List Byte) : (s.loadRx bs).rxBuf = s.rxBuf.store 0 bs := rfl
@[simp] theorem State.loadRx_rxLen (s : State) (bs : List Byte) : (s.loadRx bs).rxLen = bs.length := rfl
@[simp] theorem State.loadRx_hdr (s : State) (bs : List Byte) : (s.loadRx bs).hdr = s.hdr := rfl
@[simp] theorem State.loadRx_status (s : State) (bs : List Byte) : (s.loadRx bs).status = s.status := rfl
@[simp] theorem State.loadRx_ra (s : State) (bs : List Byte) : (s.loadRx bs).ra = s.ra := rfl
@[simp] theorem State.loadRx_snap (s : State) (bs : List Byte) : (s.loadRx bs).snap = s.snap := rfl

/-! ### storeTx -/

@[simp] theorem State.storeTx_cfg (s : State) (bs : List Byte) : (s.storeTx bs).cfg = s.cfg := rfl
@[simp] theorem State.storeTx_pending (s : State) (bs : List Byte) : (s.storeTx bs).pending = s.pending := rfl
@[simp] theorem State.storeTx_expAddr (s : State) (bs : List Byte) : (s.storeTx bs).expAddr = s.expAddr := rfl
@[simp] theorem State.storeTx_txBuf (s : State) (bs : List Byte) : (s.storeTx bs).txBuf = s.txBuf.store 0 bs := rfl
@[simp] theorem State.storeTx_rxBuf (s : State) (bs : List Byte) : (s.storeTx bs).rxBuf = s.rxBuf := rfl
@[simp] theorem State.storeTx_rxLen (s : State) (bs : List Byte) : (s.storeTx bs).rxLen = s.rxLen := rfl
@[simp] theorem State.storeTx_hdr (s : State) (bs : List Byte) : (s.storeTx bs).hdr = s.hdr := rfl
@[simp] theorem State.storeTx_status (s : State) (bs : List Byte) : (s.storeTx bs).status = s.status := rfl
@[simp] theorem State.storeTx_ra (s : State) (bs : List Byte) : (s.storeTx bs).ra = s.ra := rfl
@[simp] theorem State.storeTx_snap (s : State) (bs : List Byte) : (s.storeTx bs).snap = s.snap := rfl

/-! ### raise -/

@[simp] theorem State.raise_cfg (s : State) (e : ErrKind) : (s.raise e).cfg = s.cfg := rfl
@[simp] theorem State.raise_pending (s : State) (e : ErrKind) : (s.raise e).pending = s.pending := rfl
@[simp] theorem State.raise_expAddr (s : State) (e : ErrKind) : (s.raise e).expAddr = s.expAddr := rfl
@[simp] theorem State.raise_txBuf (s : State) (e : ErrKind) : (s.raise e).txBuf = s.txBuf := rfl
@[simp] theorem State.raise_rxBuf (s : State) (e : ErrKind) : (s.raise e).rxBuf = s.rxBuf := rfl
@[simp] theorem State.raise_rxLen (s : State) (e : ErrKind) : (s.raise e).rxLen = s.rxLen := rfl
@[simp] theorem State.raise_hdr (s : State) (e : ErrKind) : (s.raise e).hdr = s.hdr := rfl
@[simp] theorem State.raise_status (s : State) (e : ErrKind) :
    (s.raise e).status = { s.status with err := e.code } :=
  rfl
@[simp] theorem State.raise_ra (s : State) (e : ErrKind) : (s.raise e).ra = s.ra := rfl
@[simp] theorem State.raise_snap (s : State) (e : ErrKind) : (s.raise e).snap = s.snap := rfl

/-! ### clearOutcome -/

@[simp] theorem State.clearOutcome_cfg (s : State) : (s.clearOutcome).cfg = s.cfg := rfl
@[simp] theorem State.clearOutcome_pending (s : State) : (s.clearOutcome).pending = s.pending := rfl
@[simp] theorem State.clearOutcome_expAddr (s : State) : (s.clearOutcome).expAddr = s.expAddr := rfl
@[simp] theorem State.clearOutcome_txBuf (s : State) : (s.clearOutcome).txBuf = s.txBuf := rfl
@[simp] theorem State.clearOutcome_rxBuf (s : State) : (s.clearOutcome).rxBuf = s.rxBuf := rfl
@[simp] theorem State.clearOutcome_rxLen (s : State) : (s.clearOutcome).rxLen = s.rxLen := rfl
@[simp] theorem State.clearOutcome_hdr (s : State) : (s.clearOutcome).hdr = s.hdr := rfl
@[simp] theorem State.clearOutcome_status (s : State) : (s.clearOutcome).status = .clear := rfl
@[simp] theorem State.clearOutcome_ra (s : State) : (s.clearOutcome).ra = .clear := rfl
@[simp] theorem State.clearOutcome_snap (s : State) : (s.clearOutcome).snap = s.snap := rfl

/-! ### setCsumOk -/

@[simp] theorem State.setCsumOk_cfg (s : State) (v : Bool) : (s.setCsumOk v).cfg = s.cfg := rfl
@[simp] theorem State.setCsumOk_pending (s : State) (v : Bool) : (s.setCsumOk v).pending = s.pending := rfl
@[simp] theorem State.setCsumOk_expAddr (s : State) (v : Bool) : (s.setCsumOk v).expAddr = s.expAddr := rfl
@[simp] theorem State.setCsumOk_txBuf (s : State) (v : Bool) : (s.setCsumOk v).txBuf = s.txBuf := rfl
@[simp] theorem State.setCsumOk_rxBuf (s : State) (v : Bool) : (s.setCsumOk v).rxBuf = s.rxBuf := rfl
@[simp] theorem State.setCsumOk_rxLen (s : State) (v : Bool) : (s.setCsumOk v).rxLen = s.rxLen := rfl
@[simp] theorem State.setCsumOk_hdr (s : State) (v : Bool) : (s.setCsumOk v).hdr = s.hdr := rfl
@[simp] theorem State.setCsumOk_status (s : State) (v : Bool) :
    (s.setCsumOk v).status = { s.status with csumok := v } :=
  rfl
@[simp] theorem State.setCsumOk_ra (s : State) (v : Bool) : (s.setCsumOk v).ra = s.ra := rfl
@[simp] theorem State.setCsumOk_snap (s : State) (v : Bool) : (s.setCsumOk v).snap = s.snap := rfl

/-! ### latchHeader -/

@[simp] theorem State.latchHeader_cfg (s : State) : (s.latchHeader).cfg = s.cfg := rfl
@[simp] theorem State.latchHeader_pending (s : State) : (s.latchHeader).pending = s.pending := rfl
@[simp] theorem State.latchHeader_expAddr (s : State) : (s.latchHeader).expAddr = s.expAddr := rfl
@[simp] theorem State.latchHeader_txBuf (s : State) : (s.latchHeader).txBuf = s.txBuf := rfl
@[simp] theorem State.latchHeader_rxBuf (s : State) : (s.latchHeader).rxBuf = s.rxBuf := rfl
@[simp] theorem State.latchHeader_rxLen (s : State) : (s.latchHeader).rxLen = s.rxLen := rfl
@[simp] theorem State.latchHeader_hdr (s : State) :
    (s.latchHeader).hdr = { addr := s.rxBuf.read 1, cmd := s.rxBuf.read 2, len := s.rxBuf.read 3, b12 := s.rxBuf.read 12 } :=
  rfl
@[simp] theorem State.latchHeader_status (s : State) : (s.latchHeader).status = { s.status with hdrv := true } := rfl
@[simp] theorem State.latchHeader_ra (s : State) : (s.latchHeader).ra = s.ra := rfl
@[simp] theorem State.latchHeader_snap (s : State) : (s.latchHeader).snap = s.snap := rfl

/-! ### onSnap -/

@[simp] theorem State.onSnap_cfg (s : State) (f : Snapshot → Snapshot) : (s.onSnap f).cfg = s.cfg := rfl
@[simp] theorem State.onSnap_pending (s : State) (f : Snapshot → Snapshot) : (s.onSnap f).pending = s.pending := rfl
@[simp] theorem State.onSnap_expAddr (s : State) (f : Snapshot → Snapshot) : (s.onSnap f).expAddr = s.expAddr := rfl
@[simp] theorem State.onSnap_txBuf (s : State) (f : Snapshot → Snapshot) : (s.onSnap f).txBuf = s.txBuf := rfl
@[simp] theorem State.onSnap_rxBuf (s : State) (f : Snapshot → Snapshot) : (s.onSnap f).rxBuf = s.rxBuf := rfl
@[simp] theorem State.onSnap_rxLen (s : State) (f : Snapshot → Snapshot) : (s.onSnap f).rxLen = s.rxLen := rfl
@[simp] theorem State.onSnap_hdr (s : State) (f : Snapshot → Snapshot) : (s.onSnap f).hdr = s.hdr := rfl
@[simp] theorem State.onSnap_status (s : State) (f : Snapshot → Snapshot) : (s.onSnap f).status = s.status := rfl
@[simp] theorem State.onSnap_ra (s : State) (f : Snapshot → Snapshot) : (s.onSnap f).ra = s.ra := rfl
@[simp] theorem State.onSnap_snap (s : State) (f : Snapshot → Snapshot) : (s.onSnap f).snap = f s.snap := rfl

/-! ### setUnk -/

@[simp] theorem State.setUnk_cfg (s : State) : (s.setUnk).cfg = s.cfg := rfl
@[simp] theorem State.setUnk_pending (s : State) : (s.setUnk).pending = s.pending := rfl
@[simp] theorem State.setUnk_expAddr (s : State) : (s.setUnk).expAddr = s.expAddr := rfl
@[simp] theorem State.setUnk_txBuf (s : State) : (s.setUnk).txBuf = s.txBuf := rfl
@[simp] theorem State.setUnk_rxBuf (s : State) : (s.setUnk).rxBuf = s.rxBuf := rfl
@[simp] theorem State.setUnk_rxLen (s : State) : (s.setUnk).rxLen = s.rxLen := rfl
@[simp] theorem State.setUnk_hdr (s : State) : (s.setUnk).hdr = s.hdr := rfl
@[simp] theorem State.setUnk_status (s : State) : (s.setUnk).status = { s.status with unk := true } := rfl
@[simp] theorem State.setUnk_ra (s : State) : (s.setUnk).ra = s.ra := rfl
@[simp] theorem State.setUnk_snap (s : State) : (s.setUnk).snap = s.snap := rfl

/-! ### issue -/

@[simp] theorem State.issue_cfg (s : State) (op : HostOp) : (s.issue op).cfg = s.cfg := rfl
@[simp] theorem State.issue_pending (s : State) (op : HostOp) : (s.issue op).pending = op :: s.pending := rfl
@[simp] theorem State.issue_expAddr (s : State) (op : HostOp) : (s.issue op).expAddr = s.expAddr := rfl
@[simp] theorem State.issue_txBuf (s : State) (op : HostOp) : (s.issue op).txBuf = s.txBuf := rfl
@[simp] theorem State.issue_rxBuf (s : State) (op : HostOp) : (s.issue op).rxBuf = s.rxBuf := rfl
@[simp] theorem State.issue_rxLen (s : State) (op : HostOp) : (s.issue op).rxLen = s.rxLen := rfl
@[simp] theorem State.issue_hdr (s : State) (op : HostOp) : (s.issue op).hdr = s.hdr := rfl
@[simp] theorem State.issue_status (s : State) (op : HostOp) : (s.issue op).status = s.status := rfl
@[simp] theorem State.issue_ra (s : State) (op : HostOp) : (s.issue op).ra = s.ra := rfl
@[simp] theorem State.issue_snap (s : State) (op : HostOp) : (s.issue op).snap = s.snap := rfl

/-! ### reportReassembly -/

@[simp] theorem State.reportReassembly_cfg {w cap : Nat} (s : State) (p : Progress w cap) :
    (s.reportReassembly p).cfg = s.cfg :=
  rfl
@[simp] theorem State.reportReassembly_pending {w cap : Nat} (s : State) (p : Progress w cap) :
    (s.reportReassembly p).pending = s.pending :=
  rfl
@[simp] theorem State.reportReassembly_expAddr {w cap : Nat} (s : State) (p : Progress w cap) :
    (s.reportReassembly p).expAddr = s.expAddr :=
  rfl
@[simp] theorem State.reportReassembly_txBuf {w cap : Nat} (s : State) (p : Progress w cap) :
    (s.reportReassembly p).txBuf = s.txBuf :=
  rfl
@[simp] theorem State.reportReassembly_rxBuf {w cap : Nat} (s : State) (p : Progress w cap) :
    (s.reportReassembly p).rxBuf = s.rxBuf :=
  rfl
@[simp] theorem State.reportReassembly_rxLen {w cap : Nat} (s : State) (p : Progress w cap) :
    (s.reportReassembly p).rxLen = s.rxLen :=
  rfl
@[simp] theorem State.reportReassembly_hdr {w cap : Nat} (s : State) (p : Progress w cap) :
    (s.reportReassembly p).hdr = s.hdr :=
  rfl
@[simp] theorem State.reportReassembly_status {w cap : Nat} (s : State) (p : Progress w cap) :
    (s.reportReassembly p).status = s.status.noteSkips p.skip :=
  rfl
@[simp] theorem State.reportReassembly_ra {w cap : Nat} (s : State) (p : Progress w cap) :
    (s.reportReassembly p).ra = p.registers :=
  rfl
@[simp] theorem State.reportReassembly_snap {w cap : Nat} (s : State) (p : Progress w cap) :
    (s.reportReassembly p).snap = s.snap :=
  rfl

/-! ### Codes -/

@[simp] theorem ErrKind.code_ne_zero (e : ErrKind) : e.code ≠ 0#3 := by cases e <;> decide

@[simp] theorem ErrKind.code_le_five (e : ErrKind) : e.code.toNat ≤ 5 := by cases e <;> decide

theorem ErrKind.code_injective {e f : ErrKind} (h : e.code = f.code) : e = f := by
  cases e <;> cases f <;> first | rfl | exact absurd h (by decide)

end Sys2Proof.Machine
end

