-- ==== Sys2Proof/Laws/Words.lean ====
section
/-! SUPPORT. The integers behind the byte-order helpers and the signed decodings. -/

namespace Sys2Proof

/-- R62 for two bytes. -/
@[simp] theorem be16_toNat (b0 b1 : Byte) : (be16 b0 b1).toNat = 256 * b0.toNat + b1.toNat := by
  have h0 := b0.isLt
  have h1 := b1.isLt
  simp only [be16, beNat, List.foldl, BitVec.toNat_ofNat]
  omega

/-- R62 for four bytes. -/
@[simp] theorem be32_toNat (b0 b1 b2 b3 : Byte) :
    (be32 b0 b1 b2 b3).toNat = 2 ^ 24 * b0.toNat + 2 ^ 16 * b1.toNat + 2 ^ 8 * b2.toNat + b3.toNat := by
  have h0 := b0.isLt
  have h1 := b1.isLt
  have h2 := b2.isLt
  have h3 := b3.isLt
  simp only [be32, beNat, List.foldl, BitVec.toNat_ofNat]
  omega

theorem extract_toNat {w : Nat} (x : BitVec w) (k : Nat) : (x.extractLsb' k 8).toNat = x.toNat / 2 ^ k % 256 := by
  simp [BitVec.extractLsb'_toNat, Nat.shiftRight_eq_div_pow]

/-- A 16-bit field is rebuilt from its two bytes. -/
@[simp] theorem be16_bytes (x : Half) : be16 (x.extractLsb' 8 8) (x.extractLsb' 0 8) = x := by
  apply BitVec.eq_of_toNat_eq
  have := x.isLt
  simp only [be16_toNat, extract_toNat]
  omega

/-- A 32-bit field is rebuilt from its four bytes. -/
@[simp] theorem be32_bytes (x : Word32) :
    be32 (x.extractLsb' 24 8) (x.extractLsb' 16 8) (x.extractLsb' 8 8) (x.extractLsb' 0 8) = x := by
  apply BitVec.eq_of_toNat_eq
  have := x.isLt
  simp only [be32_toNat, extract_toNat]
  omega

/-- The high byte of a 16-bit field is its first byte. -/
@[simp] theorem be16_high (b0 b1 : Byte) : (be16 b0 b1).extractLsb' 8 8 = b0 := by
  apply BitVec.eq_of_toNat_eq
  have h0 := b0.isLt
  have h1 := b1.isLt
  simp only [extract_toNat, be16_toNat]
  omega

/-- The low byte of a 16-bit field is its second byte. -/
@[simp] theorem be16_low (b0 b1 : Byte) : (be16 b0 b1).extractLsb' 0 8 = b1 := by
  apply BitVec.eq_of_toNat_eq
  have h0 := b0.isLt
  have h1 := b1.isLt
  simp only [extract_toNat, be16_toNat]
  omega

/-- The two bytes of a field built from two bytes. -/
@[simp] theorem bytes16_be16 (b0 b1 : Byte) : bytes16 (be16 b0 b1) = [b0, b1] := by simp [bytes16]

/-- The four bytes of a field built from four bytes. -/
@[simp] theorem bytes32_be32 (b0 b1 b2 b3 : Byte) : bytes32 (be32 b0 b1 b2 b3) = [b0, b1, b2, b3] := by
  have h0 := b0.isLt
  have h1 := b1.isLt
  have h2 := b2.isLt
  have h3 := b3.isLt
  simp only [bytes32, List.cons.injEq, and_true]
  refine ⟨?_, ?_, ?_, ?_⟩ <;> apply BitVec.eq_of_toNat_eq <;> simp only [extract_toNat, be32_toNat] <;> omega

@[simp] theorem bytesFrom_get {n : Nat} (bs : List Byte) (a : Nat) (k : Nat) (hk : k < n) :
    (bytesFrom n bs a)[k] = byteAt bs (a + k) := by simp [bytesFrom]

namespace Machine

/-- CURR is the integer raw - 30000, with no wrap (R141). -/
@[simp] theorem currOf_toInt (raw : Half) : (currOf raw).toInt = (raw.toNat : Int) - 30000 := by
  have := raw.isLt
  have h : (currOf raw).toInt = ((raw.toNat : Int) - 30000).bmod (2 ^ 17) := by
    rw [currOf, BitVec.toInt_ofInt]; rfl
  rw [h, Int.bmod_eq_of_le] <;> omega

/-- A temperature is the integer byte - 40, with no wrap (R143). -/
@[simp] theorem tempOf_toInt (b : Byte) : (tempOf b).toInt = (b.toNat : Int) - 40 := by
  have := b.isLt
  have h : (tempOf b).toInt = ((b.toNat : Int) - 40).bmod (2 ^ 9) := by
    rw [tempOf, BitVec.toInt_ofInt]; rfl
  rw [h, Int.bmod_eq_of_le] <;> omega

theorem ioInputs_bit (io : Byte) (n : Fin 4) : (ioInputs io).getLsbD n.val = io.getLsbD n.val := by
  simp [ioInputs]

theorem ioOutputs_bit (io : Byte) (n : Fin 4) : (ioOutputs io).getLsbD n.val = io.getLsbD (4 + n.val) := by
  simp [ioOutputs]

end Machine

end Sys2Proof
end

