-- ==== Sys2Proof/Laws/Frames.lean ====
section
/-! SUPPORT. What the decoders make of a block: every block reads as an RSP row, and the encoder gives its bytes back.
The round trip of well-formed instructions is an obligation and stands there. -/

namespace Sys2Proof

/-- Every block reads as a response row. -/
theorem responseRow_isResponse (b : List Byte) : (responseRow b).isResponse = true := by
  unfold responseRow
  simp only
  repeat' split
  all_goals rfl

/-- A response row is no request row. -/
theorem Instr.isRequest_of_isResponse {i : Instr} (h : i.isResponse = true) : i.isRequest = false := by
  cases i <;> first | rfl | cases h

/-- Every RSP row and every REQ row has bytes. -/
theorem encode_isSome (i : Instr) : (encode i).isSome = (i.isRequest || i.isResponse) := by cases i <;> rfl

theorem take13 {b : List Byte} (h : blockLen ≤ b.length) :
    b.take blockLen = [byteAt b 0, byteAt b 1, byteAt b 2, byteAt b 3, byteAt b 4, byteAt b 5, byteAt b 6, byteAt b 7,
      byteAt b 8, byteAt b 9, byteAt b 10, byteAt b 11, byteAt b 12] := by
  apply List.ext_getElem
  · simp [blockLen] at h ⊢; omega
  · intro n h1 h2
    have hn : n < 13 := h2
    have hb : n < b.length := Nat.lt_of_lt_of_le hn h
    rw [List.getElem_take]
    have : b[n] = byteAt b n := (List.getD_eq_getElem b 0 hb).symm
    rw [this]
    interval_cases n <;> rfl

theorem bytesFrom8_toList (b : List Byte) (a : Nat) : (bytesFrom 8 b a).toList =
    [byteAt b a, byteAt b (a + 1), byteAt b (a + 2), byteAt b (a + 3), byteAt b (a + 4), byteAt b (a + 5),
      byteAt b (a + 6), byteAt b (a + 7)] := by
  rfl

theorem bytesFrom7_toList (b : List Byte) (a : Nat) : (bytesFrom 7 b a).toList =
    [byteAt b a, byteAt b (a + 1), byteAt b (a + 2), byteAt b (a + 3), byteAt b (a + 4), byteAt b (a + 5),
      byteAt b (a + 6)] := by
  rfl

/-- Block 0 of a 0x95 response is rebuilt from the fields that its row reads. -/
theorem responseBlock_cellV {b : List Byte} (h : blockLen ≤ b.length) (h0 : byteAt b 0 = syncByte)
    (h2 : byteAt b 2 = 0x95) :
    responseBlock (byteAt b 1) 0x95 (byteAt b 3)
      ([byteAt b 4] ++ bytes16 (be16 (byteAt b 5) (byteAt b 6)) ++ bytes16 (be16 (byteAt b 7) (byteAt b 8))
        ++ bytes16 (be16 (byteAt b 9) (byteAt b 10)) ++ [byteAt b 11]) (byteAt b 12) = b.take blockLen := by
  simp [take13 h, responseBlock, h0, h2]

/-- Block 0 of a 0x96 response is rebuilt from the fields that its row reads. -/
theorem responseBlock_temps {b : List Byte} (h : blockLen ≤ b.length) (h0 : byteAt b 0 = syncByte)
    (h2 : byteAt b 2 = 0x96) :
    responseBlock (byteAt b 1) 0x96 (byteAt b 3) (byteAt b 4 :: (bytesFrom 7 b 5).toList) (byteAt b 12)
      = b.take blockLen := by
  simp [take13 h, responseBlock, h0, h2, bytesFrom7_toList]

/-- Block 0 of a 0x97 response is rebuilt from the fields that its row reads. -/
theorem responseBlock_bal {b : List Byte} (h : blockLen ≤ b.length) (h0 : byteAt b 0 = syncByte)
    (h2 : byteAt b 2 = 0x97) :
    responseBlock (byteAt b 1) 0x97 (byteAt b 3) (bytesFrom 8 b 4).toList (byteAt b 12) = b.take blockLen := by
  simp [take13 h, responseBlock, h0, h2, bytesFrom8_toList]

/-- The bytes of a vector that stand in a longer list. -/
theorem bytesFrom_append {n : Nat} (pre : List Byte) (p : Vector Byte n) (rest : List Byte) :
    bytesFrom n (pre ++ p.toList ++ rest) pre.length = p := by
  apply Vector.ext
  intro k hk
  have h : (p.toList ++ rest)[k]?.getD 0#8 = p[k] := by
    rw [List.getElem?_append_left (by simpa using hk)]
    simp [hk]
  rw [bytesFrom_get _ _ _ hk]
  simp only [byteAt, List.getD_eq_getElem?_getD, List.append_assoc]
  rw [List.getElem?_append_right (by omega)]
  simpa using h

namespace Machine

/-! ### The received response -/

@[simp] theorem State.received_length (s : State) : s.received.length = s.rxLen := by simp [State.received]

/-- A received byte is the buffer's byte. -/
theorem State.byteAt_received (s : State) {a : Nat} (h : a < s.rxLen) : byteAt s.received a = s.rxBuf.read a := by
  simp [byteAt, State.received, h]

/-- Inside OP_DECODE the instruction's block is block 0 of RXBUF, and the decoder works on the received response. -/
theorem State.respView_received {s : State} {block : List Byte} (h : block = s.received.take blockLen) :
    s.respView block = s.received := by
  simp [State.respView, h]

/-- The received response is read from the buffer below RXLEN only (20_memory.md R65). -/
theorem State.received_congr {s t : State} (hl : t.rxLen = s.rxLen)
    (h : ∀ a, a < s.rxLen → t.rxBuf.read a = s.rxBuf.read a) : t.received = s.received := by
  simp only [State.received, hl]
  exact List.map_congr_left fun a ha => h a (List.mem_range.mp ha)

/-- A block with the later received bytes is as long as the longer of the two. -/
theorem State.respView_length (s : State) {block : List Byte} (h : block.length = 13) :
    (s.respView block).length = max 13 s.rxLen := by
  simp [State.respView, h, blockLen]
  omega

/-- A byte of the view: the block's own, or RXBUF's after it. -/
theorem State.byteAt_respView (s : State) {block : List Byte} (h : block.length = 13) {a : Nat}
    (ha : a < max 13 s.rxLen) : byteAt (s.respView block) a = block[a]?.getD (s.rxBuf.read a) := by
  simp only [State.respView, byteAt, List.getD_eq_getElem?_getD]
  by_cases h1 : a < 13
  · rw [List.getElem?_append_left (by omega), List.getElem?_eq_getElem (by omega)]
    rfl
  · rw [List.getElem?_append_right (by omega), List.getElem?_eq_none (l := block) (by omega)]
    have h2 : a < s.rxLen := by omega
    have h3 : 13 + (a - 13) = a := by omega
    simp [State.received, h, blockLen, h2, h3]

/-- CSUMOK over the integers (40_frame_codec.md R117). -/
theorem State.csumOk_iff (s : State) : s.csumOk = true ↔
    ((List.range 12).map fun k => (s.rxBuf.read k).toNat).sum % 256 = (s.rxBuf.read 12).toNat := by
  simp only [State.csumOk, checksum, decide_eq_true_eq, List.map_map]
  rw [← BitVec.toNat_inj]
  have : (BitVec.toNat ∘ s.rxBuf.read) = fun k => (s.rxBuf.read k).toNat := rfl
  rw [this]
  simp

/-- TXBUF after a frame was built. -/
theorem State.read_storeTx {s : State} (h : s.txBuf.wf 13 = true) (c : Byte) (k : Nat) :
    (s.storeTx (requestFrame c)).txBuf.read k =
      if k < 13 then byteAt (requestFrame c) k else s.txBuf.read k := by
  have := Memory.read_store (requestFrame c) h (a := 0) (by simp [requestFrame, requestBody]) k
  simpa [requestFrame, requestBody] using this

/-- RXBUF after a load. -/
theorem State.read_loadRx {s : State} {bs : List Byte} (h : s.rxBuf.wf s.cfg.rxCap = true)
    (hl : bs.length ≤ s.cfg.rxCap) (k : Nat) :
    (s.loadRx bs).rxBuf.read k = if k < bs.length then byteAt bs k else s.rxBuf.read k := by
  have := Memory.read_store bs h (a := 0) (by omega) k
  simpa using this

end Machine

end Sys2Proof
end

