-- ==== Sys2Proof/Laws/Outcomes.lean ====
section
/-! SUPPORT. What each shared operation can do, once: validation, the decoder dispatch, OP_DECODE and the step. Later
proofs cite these instead of unfolding the operations. -/

namespace Sys2Proof.Machine

/-- Validation ends in one of four ways (40_frame_codec.md R114 to R117). -/
theorem State.validated_cases (s : State) :
    (s.rxLen < blockLen ∧ s.validated = s.clearOutcome.raise .frameTooShort) ∨
    (blockLen ≤ s.rxLen ∧ s.rxBuf.read 0 ≠ syncByte ∧
      s.validated = (s.clearOutcome.setCsumOk s.csumOk).raise .badSync) ∨
    (blockLen ≤ s.rxLen ∧ s.rxBuf.read 0 = syncByte ∧ s.rxBuf.read 1 ≠ s.expAddr ∧
      s.validated = (s.clearOutcome.setCsumOk s.csumOk).raise .unexpectedAddress) ∨
    (blockLen ≤ s.rxLen ∧ s.rxBuf.read 0 = syncByte ∧ s.rxBuf.read 1 = s.expAddr ∧
      s.validated = (s.clearOutcome.setCsumOk s.csumOk).latchHeader) := by
  by_cases h : s.rxLen < blockLen
  · exact .inl ⟨h, by simp [State.validated, h]⟩
  · have hl : blockLen ≤ s.rxLen := Nat.le_of_not_lt h
    by_cases h0 : s.rxBuf.read 0 = syncByte
    · by_cases h1 : s.rxBuf.read 1 = s.expAddr
      · exact .inr (.inr (.inr ⟨hl, h0, h1, by simp [State.validated, h, h0, h1]⟩))
      · exact .inr (.inr (.inl ⟨hl, h0, h1, by simp [State.validated, h, h0, h1]⟩))
    · exact .inr (.inl ⟨hl, h0, by simp [State.validated, h, h0]⟩)

/-- Validation writes STATUS, RA_* and F_* only (10_state.md R46). -/
theorem State.validated_frame (s : State) :
    s.validated = { s with status := s.validated.status, ra := .clear, hdr := s.validated.hdr } := by
  obtain ⟨_, h⟩ | ⟨_, _, h⟩ | ⟨_, _, _, h⟩ | ⟨_, _, _, h⟩ := s.validated_cases <;> rw [h] <;> rfl

@[simp] theorem State.validated_cfg (s : State) : s.validated.cfg = s.cfg := by rw [s.validated_frame]
@[simp] theorem State.validated_pending (s : State) : s.validated.pending = s.pending := by rw [s.validated_frame]
@[simp] theorem State.validated_expAddr (s : State) : s.validated.expAddr = s.expAddr := by rw [s.validated_frame]
@[simp] theorem State.validated_txBuf (s : State) : s.validated.txBuf = s.txBuf := by rw [s.validated_frame]
@[simp] theorem State.validated_rxBuf (s : State) : s.validated.rxBuf = s.rxBuf := by rw [s.validated_frame]
@[simp] theorem State.validated_rxLen (s : State) : s.validated.rxLen = s.rxLen := by rw [s.validated_frame]
@[simp] theorem State.validated_ra (s : State) : s.validated.ra = .clear := by rw [s.validated_frame]
@[simp] theorem State.validated_snap (s : State) : s.validated.snap = s.snap := by rw [s.validated_frame]
@[simp] theorem State.validated_received (s : State) : s.validated.received = s.received := by
  simp [State.received]

/-- Validation reports no error exactly when the three tests pass. -/
theorem State.validated_err_zero (s : State) : s.validated.status.err = 0 ↔ s.Framed := by
  obtain ⟨a, h⟩ | ⟨a, b, h⟩ | ⟨a, b, c, h⟩ | ⟨a, b, c, h⟩ := s.validated_cases
  · simp [h, State.Framed, Nat.not_le.mpr a]
  · simp [h, State.Framed, b]
  · simp [h, State.Framed, c]
  · simp [h, State.Framed, a, b, c, Status.clear]

/-- What validation leaves when it succeeds (R115, R117). -/
theorem State.validated_framed {s : State} (h : s.Framed) :
    s.validated = (s.clearOutcome.setCsumOk s.csumOk).latchHeader := by
  obtain ⟨a, e⟩ | ⟨_, b, e⟩ | ⟨_, _, c, e⟩ | ⟨_, _, _, e⟩ := s.validated_cases
  · exact absurd h.1 (Nat.not_le.mpr a)
  · exact absurd h.2.1 b
  · exact absurd h.2.2 c
  · exact e

/-- OP_DECODE of a buffer that fails validation is OP_VALIDATE (R118). -/
theorem execOpDecode_invalid {s : State} (h : ¬s.Framed) : execOpDecode s = .next s.validated := by
  have : s.validated.status.err ≠ 0 := fun e => h (s.validated_err_zero.mp e)
  simp only [execOpDecode, if_pos this]

/-- OP_DECODE of a valid buffer runs the decoder of its row on the validated state (R118, R119). -/
theorem execOpDecode_framed {s : State} (h : s.Framed) :
    execOpDecode s = runDecoder (responseRow s.received) s.validated := by
  simp [execOpDecode, s.validated_err_zero.mpr h]

/-- The dispatch of OP_DECODE runs exactly what exec runs for that row. -/
theorem runDecoder_eq_exec {i : Instr} (h : i.isResponse = true) (s : State) : runDecoder i s = exec i s := by
  cases i <;> first | rfl | cases h

/-- A decoder always goes on; it writes STATUS, RA_* and the snapshot at most (R46). -/
theorem runDecoder_next {i : Instr} (h : i.isResponse = true) (s : State) :
    ∃ t, runDecoder i s = .next t ∧ t = { s with status := t.status, ra := t.ra, snap := t.snap } := by
  cases i <;> try cases h
  case rspCellV =>
    simp only [runDecoder, execRspCellV]
    split <;> exact ⟨_, rfl, rfl⟩
  case rspTemps =>
    simp only [runDecoder, execRspTemps]
    split <;> exact ⟨_, rfl, rfl⟩
  case rspBal =>
    simp only [runDecoder, execRspBal]
    split
    · exact ⟨_, rfl, rfl⟩
    · split <;> exact ⟨_, rfl, rfl⟩
  all_goals exact ⟨_, rfl, rfl⟩

/-- OP_DECODE always goes on; it writes F_*, STATUS, RA_* and the snapshot at most (R46). -/
theorem execOpDecode_next (s : State) :
    ∃ t, execOpDecode s = .next t ∧ t = { s with hdr := t.hdr, status := t.status, ra := t.ra, snap := t.snap } := by
  by_cases h : s.Framed
  · rw [execOpDecode_framed h]
    obtain ⟨t, ht, hf⟩ := runDecoder_next (responseRow_isResponse s.received) s.validated
    refine ⟨t, ht, ?_⟩
    rw [hf]
    simp
  · rw [execOpDecode_invalid h]
    exact ⟨_, rfl, by rw [s.validated_frame]⟩

/-- A step runs the next issued operation, or is idle. -/
theorem step_cases {s t : State} (h : step s = .next t) :
    (s.pending = [] ∧ t = s) ∨
    ∃ op rest, s.pending = op :: rest ∧ exec op.instr { s with pending := rest } = .next t := by
  unfold step at h
  split at h
  · rename_i hp
    cases h
    exact .inl ⟨hp, rfl⟩
  · rename_i op rest hp
    exact .inr ⟨op, rest, hp, h⟩

/-- What each host operation does, as one case each. -/
theorem exec_op_cases {op : HostOp} {s t : State} (h : exec op.instr s = .next t) :
    (op = .reset ∧ t = { State.reset with cfg := s.cfg, pending := s.pending }) ∨
    (∃ a, op = .setAddr a ∧ t = { s with expAddr := a }) ∨
    (∃ c, op = .encode c ∧ t = s.storeTx (requestFrame c)) ∨
    (∃ bs, op = .load bs ∧ bs.length ≤ s.cfg.rxCap ∧ t = s.loadRx bs) ∨
    (op = .validate ∧ t = s.validated) ∨
    (op = .decode ∧ execOpDecode s = .next t) := by
  cases op with
  | reset => cases h; exact .inl ⟨rfl, rfl⟩
  | setAddr a => cases h; exact .inr (.inl ⟨a, rfl, rfl⟩)
  | encode c => cases h; exact .inr (.inr (.inl ⟨c, rfl, rfl⟩))
  | load bs =>
    simp only [HostOp.instr, exec, execOpLoad] at h
    split at h
    · cases h
    · rename_i hn
      cases h
      exact .inr (.inr (.inr (.inl ⟨bs, rfl, Nat.le_of_not_lt hn, rfl⟩)))
  | validate => cases h; exact .inr (.inr (.inr (.inr (.inl ⟨rfl, rfl⟩))))
  | decode => exact .inr (.inr (.inr (.inr (.inr ⟨rfl, h⟩))))

end Sys2Proof.Machine
end

