-- ==== Sys2Proof/Laws/Reassembly.lean ====
section
/-! SUPPORT. The reassembly loop, said once: what the inner loop places, what the outer loop has placed, skipped and
examined at every index, and the result of a whole run. -/

namespace Sys2Proof.Machine

/-! ### The subframes in use -/

theorem usedSubframes_succ (b : Nat → Byte) (n : Nat) :
    usedSubframes b (n + 1) =
      usedSubframes b n ++ (if (b (13 * n + 4)).toNat = n + 1 then [n] else []) := by
  simp only [usedSubframes, List.range_succ, List.filter_append, List.filter_cons, List.filter_nil, decide_eq_true_eq]

theorem usedSubframes_length_le (b : Nat → Byte) (n : Nat) : (usedSubframes b n).length ≤ n := by
  simpa [usedSubframes] using List.length_filter_le (fun i => decide ((b (13 * i + 4)).toNat = i + 1)) (List.range n)

theorem usedSubframes_mem {b : Nat → Byte} {n i : Nat} (h : i ∈ usedSubframes b n) : i < n :=
  List.mem_range.mp (List.mem_filter.mp h).1

/-- Only the sequence bytes of the first `n` subframes matter. -/
theorem usedSubframes_congr {b c : Nat → Byte} {n : Nat} (h : ∀ i, i < n → b (13 * i + 4) = c (13 * i + 4)) :
    usedSubframes b n = usedSubframes c n :=
  List.filter_congr fun i hi => by rw [h i (List.mem_range.mp hi)]

/-- A longer run uses the same subframes first. -/
theorem usedSubframes_append (b : Nat → Byte) (m n : Nat) (h : m ≤ n) :
    ∃ rest, usedSubframes b n = usedSubframes b m ++ rest := by
  induction n with
  | zero => exact ⟨[], by simp [Nat.le_zero.mp h]⟩
  | succ n ih =>
    by_cases hm : m ≤ n
    · obtain ⟨rest, hr⟩ := ih hm
      exact ⟨_, by rw [usedSubframes_succ, hr, List.append_assoc]⟩
    · have : m = n + 1 := by omega
      exact ⟨[], by simp [this]⟩

/-! ### The inner loop -/

/-- What the inner loop does (R172): it places the first `rem` items densely and touches nothing else. -/
theorem placeItems_spec {w cap : Nat} (xs : List (BitVec w)) (p : Progress w cap) (h : p.placed + p.rem ≤ cap) :
    (placeItems xs p).placed = p.placed + min xs.length p.rem ∧
    (placeItems xs p).rem = p.rem - min xs.length p.rem ∧
    (placeItems xs p).idx = p.idx ∧ (placeItems xs p).skip = p.skip ∧
    ∀ k : Fin cap, (placeItems xs p).dst[k] =
      if p.placed ≤ k.val then
        match (xs.take p.rem)[k.val - p.placed]? with
        | some x => { val := x, present := true }
        | none => p.dst[k]
      else p.dst[k] := by
  induction xs generalizing p with
  | nil => simp [placeItems]
  | cons x xs ih =>
    by_cases hr : p.rem = 0
    · simp [placeItems, hr]
    · have hstep := ih
        { p with
          dst := p.dst.setIfInBounds p.placed { val := x, present := true }
          placed := p.placed + 1, rem := p.rem - 1 } (by simp only; omega)
      simp only [placeItems, if_neg hr]
      obtain ⟨h1, h2, h3, h4, h5⟩ := hstep
      refine ⟨by rw [h1]; simp only [List.length_cons]; omega, by rw [h2]; simp only [List.length_cons]; omega,
        h3, h4, fun k => ?_⟩
      obtain ⟨r, hrr⟩ : ∃ r, p.rem = r + 1 := ⟨p.rem - 1, by omega⟩
      have h5k := h5 k
      simp only at h5k
      rw [h5k]
      have hk := k.isLt
      by_cases hle : p.placed ≤ k.val
      · rw [if_pos hle]
        by_cases heq : k.val = p.placed
        · have hn : ¬(p.placed + 1 ≤ k.val) := by omega
          have hpc : p.placed < cap := by omega
          rw [if_neg hn]
          simp [hrr, heq, Fin.getElem_fin]
        · have hy : p.placed + 1 ≤ k.val := by omega
          obtain ⟨d, hd⟩ : ∃ d, k.val - p.placed = d + 1 := ⟨k.val - p.placed - 1, by omega⟩
          have hd' : k.val - (p.placed + 1) = d := by omega
          have hne : ¬p.placed = k.val := fun e => heq e.symm
          rw [if_pos hy, hd, hd', hrr]
          simp [Fin.getElem_fin, hne]
      · have hn : ¬(p.placed + 1 ≤ k.val) := by omega
        have hne : ¬p.placed = k.val := by omega
        rw [if_neg hle, if_neg hn]
        simp [Fin.getElem_fin, hne]

/-! ### The outer loop -/

/-- Where the loop stands after `p.idx` subframes: the items of the used ones are placed up to the count. -/
structure Progress.At {w cap : Nat} (b : Nat → Byte) (items : Nat → List (BitVec w)) (count : Nat)
    (dst : Vector (Slot w) cap) (p : Progress w cap) : Prop where
  placed : p.placed = (placedItems b items p.idx count).length
  rem : p.rem = count - (placedItems b items p.idx count).length
  skip : p.skip = p.idx - (usedSubframes b p.idx).length
  slots : ∀ k : Fin cap, p.dst[k] =
    match (placedItems b items p.idx count)[k.val]? with
    | some x => { val := x, present := true }
    | none => dst[k]

theorem placedItems_length {α : Type} (b : Nat → Byte) (items : Nat → List α) (n count : Nat) :
    (placedItems b items n count).length = min count ((usedSubframes b n).flatMap items).length := by
  simp [placedItems]

/-- One more subframe (R172, R174). -/
theorem examine_at {w cap : Nat} {v : List Byte} {items : Nat → List (BitVec w)} {count : Nat}
    {dst : Vector (Slot w) cap} {p : Progress w cap} (hcap : count ≤ cap)
    (h : p.At (byteAt v) items count dst) (hrem : p.rem ≠ 0) : (examine v items p).At (byteAt v) items count dst := by
  have hlen := placedItems_length (byteAt v) items p.idx count
  have hF : ((usedSubframes (byteAt v) p.idx).flatMap items).length < count := by
    have := h.rem
    omega
  have hfull : placedItems (byteAt v) items p.idx count = (usedSubframes (byteAt v) p.idx).flatMap items :=
    List.take_of_length_le (by omega)
  have hused := usedSubframes_length_le (byteAt v) p.idx
  have hsb : sb v p.idx 0 = byteAt v (13 * p.idx + 4) := rfl
  by_cases hs : (sb v p.idx 0).toNat = p.idx + 1
  · have hu : usedSubframes (byteAt v) (p.idx + 1) = usedSubframes (byteAt v) p.idx ++ [p.idx] := by
      rw [usedSubframes_succ, if_pos (hsb ▸ hs)]
    have hpl : placedItems (byteAt v) items (p.idx + 1) count
        = placedItems (byteAt v) items p.idx count ++ (items p.idx).take p.rem := by
      have hr : p.rem = count - ((usedSubframes (byteAt v) p.idx).flatMap items).length := by
        rw [h.rem, hfull]
      rw [hfull, hr]
      simp only [placedItems, hu, List.flatMap_append, List.flatMap_singleton, List.take_append]
      rw [List.take_of_length_le (by omega)]
    obtain ⟨s1, s2, s3, s4, s5⟩ := placeItems_spec (items p.idx) p (by have := h.placed; have := h.rem; omega)
    have hpr := h.placed
    have hrr := h.rem
    constructor
    · simp only [examine, if_pos hs, s3]
      rw [s1, hpl, List.length_append, List.length_take]
      omega
    · simp only [examine, if_pos hs, s3]
      rw [s2, hpl, List.length_append, List.length_take]
      omega
    · simp only [examine, if_pos hs, s3, s4]
      rw [h.skip, hu, List.length_append]
      simp only [List.length_cons, List.length_nil]
      omega
    · intro k
      simp only [examine, if_pos hs, s3]
      rw [s5 k, hpl, List.getElem?_append, ← hpr]
      by_cases hk : p.placed ≤ k.val
      · have hk' : ¬(k.val < p.placed) := by omega
        have hold : p.dst[k] = dst[k] := by
          rw [h.slots k, List.getElem?_eq_none (by omega)]
        rw [if_pos hk, if_neg hk', hold]
      · rw [if_neg hk, if_pos (by omega), h.slots k]
  · have hu : usedSubframes (byteAt v) (p.idx + 1) = usedSubframes (byteAt v) p.idx := by
      rw [usedSubframes_succ, if_neg (hsb ▸ hs), List.append_nil]
    have hpl : placedItems (byteAt v) items (p.idx + 1) count = placedItems (byteAt v) items p.idx count := by
      simp only [placedItems, hu]
    constructor
    · simp only [examine, if_neg hs]; rw [hpl, h.placed]
    · simp only [examine, if_neg hs]; rw [hpl, h.rem]
    · simp only [examine, if_neg hs]
      rw [hu, h.skip]
      omega
    · intro k
      simp only [examine, if_neg hs]
      rw [hpl, h.slots k]

@[simp] theorem examine_idx {w cap : Nat} (v : List Byte) (items : Nat → List (BitVec w)) (p : Progress w cap)
    (h : p.placed + p.rem ≤ cap) : (examine v items p).idx = p.idx + 1 := by
  by_cases hs : (sb v p.idx 0).toNat = p.idx + 1
  · simp [examine, hs, (placeItems_spec (items p.idx) p h).2.2.1]
  · simp [examine, hs]

/-- The outer loop from a standing position: it ends at an index not past its bound, with items still required before
every subframe it examined, and it stops only at the bound or when none is required any more (R173). -/
theorem examineUpTo_at {w cap : Nat} {v : List Byte} {items : Nat → List (BitVec w)} {count : Nat}
    {dst : Vector (Slot w) cap} (hcap : count ≤ cap) (n : Nat) {p : Progress w cap}
    (h : p.At (byteAt v) items count dst) :
    (examineUpTo v items n p).At (byteAt v) items count dst ∧
    p.idx ≤ (examineUpTo v items n p).idx ∧ (examineUpTo v items n p).idx ≤ p.idx + n ∧
    (∀ j, p.idx ≤ j → j < (examineUpTo v items n p).idx →
      ((usedSubframes (byteAt v) j).flatMap items).length < count) ∧
    ((examineUpTo v items n p).idx = p.idx + n ∨
      count ≤ ((usedSubframes (byteAt v) (examineUpTo v items n p).idx).flatMap items).length) := by
  induction n generalizing p with
  | zero => exact ⟨h, Nat.le_refl _, Nat.le_refl _, fun j h1 h2 => by simp [examineUpTo] at h2; omega, .inl rfl⟩
  | succ n ih =>
    have hlen := placedItems_length (byteAt v) items p.idx count
    have hrem := h.rem
    by_cases hr : p.rem = 0
    · simp only [examineUpTo, if_pos hr]
      exact ⟨h, Nat.le_refl _, by omega, fun j h1 h2 => by omega, .inr (by omega)⟩
    · simp only [examineUpTo, if_neg hr]
      have hi : (examine v items p).idx = p.idx + 1 :=
        examine_idx v items p (by have := h.placed; omega)
      obtain ⟨a, b, c, d, e⟩ := ih (examine_at hcap h hr)
      rw [hi] at b c d e
      refine ⟨a, by omega, by omega, fun j h1 h2 => ?_, ?_⟩
      · by_cases hj : j = p.idx
        · subst hj; omega
        · exact d j (by omega) h2
      · rcases e with e | e
        · exact .inl (by omega)
        · exact .inr e

/-- A flat map of lists of one length. -/
theorem flatMap_length {α : Type} {items : Nat → List α} {per : Nat} (h : ∀ i, (items i).length = per)
    (l : List Nat) : (l.flatMap items).length = per * l.length := by
  induction l with
  | nil => simp
  | cons x l ih => simp [ih, h, Nat.mul_add, Nat.add_comm]

/-- The whole run (R172, R173, R177): what is placed, examined, skipped and still required, and the slots. -/
theorem reassemble_spec {w cap : Nat} (v : List Byte) (items : Nat → List (BitVec w)) (per maxSf count : Nat)
    (dst : Vector (Slot w) cap) (hcap : count ≤ cap) (hper : ∀ i, (items i).length = per) :
    let n := min maxSf (v.length / 13)
    let p := reassemble v items maxSf count dst
    let placed := placedItems (byteAt v) items n count
    ExaminedCount (byteAt v) per n count p.idx ∧ p.rem = count - placed.length ∧
    p.skip = p.idx - (usedSubframes (byteAt v) p.idx).length ∧
    SlotsAfter placed count dst (markAbsent count p.dst) := by
  intro n p placed
  obtain ⟨a, -, c, d, e⟩ := examineUpTo_at (v := v) (items := items) (count := count) (dst := dst) hcap n
    (p := { dst := dst, placed := 0, rem := count, idx := 0, skip := 0 })
    ⟨by simp [placedItems, usedSubframes], by simp [placedItems, usedSubframes], by simp [usedSubframes],
      fun k => by simp [placedItems, usedSubframes]⟩
  have hp : examineUpTo v items n { dst := dst, placed := 0, rem := count, idx := 0, skip := 0 } = p := rfl
  rw [hp] at a c d e
  simp only [Nat.zero_add] at c e
  have hpl : placedItems (byteAt v) items p.idx count = placed := by
    rcases e with e | e
    · rw [e]
    · obtain ⟨rest, hr⟩ := usedSubframes_append (byteAt v) p.idx n c
      simp only [placed, placedItems, hr, List.flatMap_append, List.take_append_of_le_length e]
  refine ⟨⟨c, fun j hj => ?_, ?_⟩, ?_, a.skip, fun k => ?_⟩
  · rw [← flatMap_length hper]; exact d j (Nat.zero_le j) hj
  · rw [← flatMap_length hper]; exact e
  · rw [a.rem, hpl]
  · have hs := a.slots k
    rw [hpl] at hs
    have hlen : placed.length ≤ count := by
      simp only [placed, placedItems_length]; omega
    simp only [markAbsent, Fin.getElem_fin, Vector.getElem_ofFn]
    by_cases hk : k.val < count
    · rw [if_pos hk]
      simp only [Fin.getElem_fin] at hs
      rw [hs]
      cases placed[k.val]? <;> simp [hk]
    · rw [if_neg hk, List.getElem?_eq_none (by omega)]
      simp [hk, Slot.absent]

/-! ### The two columns of R170 -/

@[simp] theorem voltItems_length (v : List Byte) (i : Nat) : (voltItems v i).length = 3 := rfl

@[simp] theorem tempItems_length (v : List Byte) (i : Nat) : (tempItems v i).length = 7 := by
  simp [tempItems, itemsPerT]

/-- The voltage items of the loop are those of the layout (R84, R175). -/
theorem voltItems_eq (v : List Byte) (i : Nat) : voltItems v i = voltageItems (byteAt v) i := by
  simp [voltItems, voltageItems, su16, sb, be16, beNat, blockLen, payloadOff, Nat.add_assoc]

/-- The temperature items of the loop are those of the layout (R85, R176). -/
theorem tempItems_eq (v : List Byte) (i : Nat) : tempItems v i = temperatureItems (byteAt v) i := by
  simp [tempItems, temperatureItems, tempOf, sb, itemsPerT, blockLen, payloadOff, tempOffset, List.range_succ,
    Nat.add_assoc]

/-! ### Only the examined blocks matter -/

theorem placedItems_congr {w : Nat} {b c : Nat → Byte} {items : (Nat → Byte) → Nat → List (BitVec w)} {n count : Nat}
    (h : ∀ i, i < n → b (13 * i + 4) = c (13 * i + 4)) (h2 : ∀ i, i < n → items b i = items c i) :
    placedItems b (items b) n count = placedItems c (items c) n count := by
  simp only [placedItems, usedSubframes_congr h]
  congr 1
  exact List.flatMap_congr fun i hi => h2 i (usedSubframes_mem hi)

theorem ExaminedCount.congr {b c : Nat → Byte} {per n count e : Nat}
    (h : ∀ i, i < n → b (13 * i + 4) = c (13 * i + 4)) (hx : ExaminedCount b per n count e) :
    ExaminedCount c per n count e := by
  obtain ⟨h1, h2, h3⟩ := hx
  have hu : ∀ m, m ≤ n → usedSubframes b m = usedSubframes c m := fun m hm =>
    usedSubframes_congr fun i hi => h i (by omega)
  refine ⟨h1, fun j hj => by rw [← hu j (by omega)]; exact h2 j hj, ?_⟩
  rw [← hu e h1]; exact h3

theorem voltageItems_congr {b c : Nat → Byte} {i : Nat} (h : ∀ o, 5 ≤ o → o ≤ 10 → b (13 * i + o) = c (13 * i + o)) :
    voltageItems b i = voltageItems c i := by
  simp only [voltageItems, List.map_cons, List.map_nil, Nat.add_assoc]
  rw [h 5 (by omega) (by omega), h (5 + 1) (by omega) (by omega), h 7 (by omega) (by omega),
    h (7 + 1) (by omega) (by omega), h 9 (by omega) (by omega), h (9 + 1) (by omega) (by omega)]

theorem temperatureItems_congr {b c : Nat → Byte} {i : Nat}
    (h : ∀ o, 5 ≤ o → o ≤ 11 → b (13 * i + o) = c (13 * i + o)) : temperatureItems b i = temperatureItems c i := by
  simp only [temperatureItems, List.map_cons, List.map_nil]
  rw [h 5 (by omega) (by omega), h 6 (by omega) (by omega), h 7 (by omega) (by omega), h 8 (by omega) (by omega),
    h 9 (by omega) (by omega), h 10 (by omega) (by omega), h 11 (by omega) (by omega)]

/-- A whole run over bytes `b` with one column of R170: the slots, and what RA_* and SEQMIS report of it. -/
theorem reassemble_reports {w cap : Nat} (itemsOf : List Byte → Nat → List (BitVec w))
    (decl : (Nat → Byte) → Nat → List (BitVec w)) (heq : ∀ v i, itemsOf v i = decl (byteAt v) i)
    (per maxSf count : Nat) (hper : ∀ v i, (itemsOf v i).length = per) (hmax : maxSf ≤ 16) (hcount : count ≤ 16)
    (hcap : count ≤ cap) (dst : Vector (Slot w) cap) (v : List Byte) (b : Nat → Byte)
    (hv : ∀ a, a < v.length → byteAt v a = b a)
    (hc : ∀ n, n ≤ v.length / 13 → ∀ i, i < n → decl (byteAt v) i = decl b i) (s : State) :
    let n := min maxSf (v.length / 13)
    let p := reassemble v (itemsOf v) maxSf count dst
    let placed := placedItems b (decl b) n count
    SlotsAfter placed count dst (markAbsent count p.dst) ∧
    (s.status.seqmis = false → ∀ t : State, t.ra = p.registers → t.status = s.status.noteSkips p.skip →
      ReportsReassembly b per n count placed.length t) := by
  intro n p placed
  obtain ⟨a1, a2, a3, a4⟩ := reassemble_spec v (itemsOf v) per maxSf count dst hcap (hper v)
  have hn : n ≤ v.length / 13 := by simp only [n]; omega
  have hn16 : n ≤ 16 := by simp only [n]; omega
  have hseq : ∀ i, i < n → byteAt v (13 * i + 4) = b (13 * i + 4) := fun i hi => hv _ (by omega)
  have hpl : placedItems (byteAt v) (itemsOf v) n count = placed := by
    have : itemsOf v = decl (byteAt v) := funext (heq v)
    rw [this]
    exact placedItems_congr hseq (hc n hn)
  rw [hpl] at a2 a4
  change ExaminedCount (byteAt v) per n count p.idx at a1
  change p.rem = _ at a2
  change p.skip = p.idx - (usedSubframes (byteAt v) p.idx).length at a3
  refine ⟨a4, fun hs t ht1 ht2 => ?_⟩
  have hex := a1.congr hseq
  have hidx : p.idx ≤ n := hex.1
  have hskip : p.skip ≤ 16 := by rw [a3]; omega
  have hu : usedSubframes (byteAt v) p.idx = usedSubframes b p.idx :=
    usedSubframes_congr fun i hi => hseq i (by omega)
  have i1 : t.ra.idx.toNat = p.idx := by simp [ht1, Progress.registers]; omega
  have i2 : t.ra.rem.toNat = p.rem := by simp [ht1, Progress.registers]; omega
  have i3 : t.ra.skip.toNat = p.skip := by simp [ht1, Progress.registers]; omega
  refine ⟨by rw [i1]; exact hex, by rw [i2]; exact a2, by rw [i3, i1, ← hu]; exact a3, ?_⟩
  rw [i3]
  simp [ht2, Status.noteSkips, hs]
  omega

/-- A run depends on the response through its length, the sequence bytes and the items only. -/
theorem reassemble_congr {w cap : Nat} {u v : List Byte} {items : Nat → List (BitVec w)} (hl : u.length = v.length)
    (hs : ∀ i, sb u i 0 = sb v i 0) (maxSf count : Nat) (dst : Vector (Slot w) cap) :
    reassemble u items maxSf count dst = reassemble v items maxSf count dst := by
  have h : ∀ (n : Nat) (p : Progress w cap), examineUpTo u items n p = examineUpTo v items n p := by
    intro n
    induction n with
    | zero => intro p; rfl
    | succ n ih => intro p; simp only [examineUpTo, examine, hs, ih]
  simp only [reassemble, hl, h]

/-- The items placed, converted one by one. -/
theorem placedItems_map {α β : Type} (f : α → β) (b : Nat → Byte) (items : Nat → List α) (n count : Nat) :
    placedItems b (fun i => (items i).map f) n count = (placedItems b items n count).map f := by
  simp only [placedItems, List.map_take, List.map_flatMap]

/-! ### The subframes examined and skipped -/

/-- A subframe was skipped exactly when one of those examined has a wrong number (R174). -/
theorem skipped_iff (b : Nat → Byte) (e : Nat) :
    e - (usedSubframes b e).length ≠ 0 ↔ ∃ i, i < e ∧ (b (13 * i + 4)).toNat ≠ i + 1 := by
  have hl := usedSubframes_length_le b e
  have hf : (usedSubframes b e).length = e ↔ ∀ i ∈ List.range e, decide ((b (13 * i + 4)).toNat = i + 1) = true := by
    conv_lhs => rhs; rw [← List.length_range (n := e)]
    exact List.length_filter_eq_length_iff
  simp only [List.mem_range, decide_eq_true_eq] at hf
  rw [show e - (usedSubframes b e).length ≠ 0 ↔ ¬(usedSubframes b e).length = e by omega, hf]
  simp only [not_forall, exists_prop, ne_eq]

/-- Which subframes a run examines: whole ones, reached while items were still required (R173). -/
theorem ExaminedCount.lt_iff {b : Nat → Byte} {per n count e : Nat} (h : ExaminedCount b per n count e) (i : Nat) :
    i < e ↔ i < n ∧ per * (usedSubframes b i).length < count := by
  obtain ⟨h1, h2, h3⟩ := h
  refine ⟨fun hi => ⟨by omega, h2 i hi⟩, fun ⟨h4, h5⟩ => ?_⟩
  rcases h3 with h3 | h3
  · omega
  · by_contra hc
    obtain ⟨rest, hr⟩ := usedSubframes_append b e i (by omega)
    have hm := Nat.mul_le_mul_left per (show (usedSubframes b e).length ≤ (usedSubframes b i).length by simp [hr])
    omega

/-- SEQMIS reports an examined subframe whose number is not its position + 1 (R174). -/
theorem ReportsReassembly.seqmis_iff {b : Nat → Byte} {per n count placed : Nat} {t : State}
    (h : ReportsReassembly b per n count placed t) :
    t.status.seqmis = true ↔
      ∃ i, i < n ∧ per * (usedSubframes b i).length < count ∧ (b (13 * i + 4)).toNat ≠ i + 1 := by
  obtain ⟨h1, -, h3, h4⟩ := h
  rw [h4, h3, skipped_iff]
  simp only [h1.lt_iff, and_assoc]

end Sys2Proof.Machine
end

