-- ==== Sys2Proof/Laws/Decoders.lean ====
section
/-! SUPPORT. OP_DECODE on a valid buffer, command by command, over the bytes of RXBUF, and the case analysis over all of
them: later proofs cite these instead of unfolding the dispatch. -/

namespace Sys2Proof.Machine

/-- Block 0 of a valid buffer is read from RXBUF. -/
theorem State.Framed.byteAt {s : State} (h : s.Framed) {a : Nat} (ha : a < 13) :
    byteAt s.received a = s.rxBuf.read a :=
  s.byteAt_received (Nat.lt_of_lt_of_le ha h.1)

theorem State.Framed.received_length {s : State} (h : s.Framed) : blockLen ≤ s.received.length := by
  rw [State.received_length]; exact h.1

/-- STATUS after a validation that succeeds. -/
theorem State.Framed.status {s : State} (h : s.Framed) : s.validated.status = ⟨0, true, false, false, s.csumOk⟩ := by
  rw [State.validated_framed h]; rfl

/-- F_* after a validation that succeeds. -/
theorem State.Framed.hdr {s : State} (h : s.Framed) :
    s.validated.hdr = ⟨s.rxBuf.read 1, s.rxBuf.read 2, s.rxBuf.read 3, s.rxBuf.read 12⟩ := by
  rw [State.validated_framed h]; rfl

/-- Inside OP_DECODE a decoder works on the received response. -/
theorem State.Framed.view {s : State} {block : List Byte} (hb : block = s.received.take blockLen) :
    s.validated.respView block = s.received := by
  have h : block = s.validated.received.take blockLen := by rw [State.validated_received]; exact hb
  rw [State.respView_received h, State.validated_received]

/-- The row that OP_DECODE runs, with the command code read off. -/
theorem execOpDecode_row {s : State} (h : s.Framed) {c : Byte} (hc : s.rxBuf.read 2 = c) :
    execOpDecode s = runDecoder (responseRow s.received) s.validated ∧ Sys2Proof.byteAt s.received 2 = c :=
  ⟨execOpDecode_framed h, by rw [h.byteAt (by decide)]; exact hc⟩

theorem execOpDecode_soc {s : State} (h : s.Framed) (hc : s.rxBuf.read 2 = 0x90) :
    execOpDecode s = .next (s.validated.onSnap fun p =>
      { p with
        volt := be16 (s.rxBuf.read 4) (s.rxBuf.read 5), curr := currOf (be16 (s.rxBuf.read 8) (s.rxBuf.read 9))
        soc := be16 (s.rxBuf.read 10) (s.rxBuf.read 11), p90 := true }) := by
  obtain ⟨hr, h2⟩ := execOpDecode_row h hc
  rw [hr]
  simp [responseRow, h2, h.byteAt, runDecoder, execRspSoc]

theorem execOpDecode_cellMinMax {s : State} (h : s.Framed) (hc : s.rxBuf.read 2 = 0x91) :
    execOpDecode s = .next (s.validated.onSnap fun p =>
      { p with
        hiCell := be16 (s.rxBuf.read 4) (s.rxBuf.read 5), hiIdx := s.rxBuf.read 6
        loCell := be16 (s.rxBuf.read 7) (s.rxBuf.read 8), loIdx := s.rxBuf.read 9, p91 := true }) := by
  obtain ⟨hr, h2⟩ := execOpDecode_row h hc
  rw [hr]
  simp [responseRow, h2, h.byteAt, runDecoder, execRspCellMinMax]

theorem State.Framed.payload {s : State} (h : s.Framed) {k : Nat} (hk : k < 8) :
    (bytesFrom 8 s.received 4)[k] = s.rxBuf.read (4 + k) := by
  rw [bytesFrom_get _ _ _ hk, h.byteAt (by omega)]

theorem execOpDecode_tempMinMax {s : State} (h : s.Framed) (hc : s.rxBuf.read 2 = 0x92) :
    execOpDecode s = .next (s.validated.onSnap fun p =>
      { p with
        tMax := tempOf (s.rxBuf.read (4 + s.cfg.offTMax.val)), tMin := tempOf (s.rxBuf.read (4 + s.cfg.offTMin.val))
        p92 := true }) := by
  obtain ⟨hr, h2⟩ := execOpDecode_row h hc
  rw [hr]
  simp [responseRow, h2, h.payload, runDecoder, execRspTempMinMax]

theorem execOpDecode_mos {s : State} (h : s.Framed) (hc : s.rxBuf.read 2 = 0x93) :
    execOpDecode s = .next (s.validated.onSnap fun p =>
      { p with
        cdStat := s.rxBuf.read 4, chgMos := s.rxBuf.read 5, disMos := s.rxBuf.read 6
        remCap := be32 (s.rxBuf.read 8) (s.rxBuf.read 9) (s.rxBuf.read 10) (s.rxBuf.read 11), p93 := true }) := by
  obtain ⟨hr, h2⟩ := execOpDecode_row h hc
  rw [hr]
  simp [responseRow, h2, h.byteAt, runDecoder, execRspMos]

theorem execOpDecode_status {s : State} (h : s.Framed) (hc : s.rxBuf.read 2 = 0x94) :
    execOpDecode s = .next (s.validated.onSnap fun p =>
      { p with
        cellCnt := s.rxBuf.read 4, sensCnt := s.rxBuf.read 5
        chgrStat := s.rxBuf.read (4 + s.cfg.offChgr.val), loadStat := s.rxBuf.read (4 + s.cfg.offLoad.val)
        dIn := ioInputs (s.rxBuf.read 8), dOut := ioOutputs (s.rxBuf.read 8), p94 := true }) := by
  obtain ⟨hr, h2⟩ := execOpDecode_row h hc
  rw [hr]
  simp [responseRow, h2, h.payload, runDecoder, execRspStatus]

/-- The reassembly that OP_DECODE of a 0x95 response runs. -/
def State.cellRun (s : State) : Progress 16 16 :=
  reassemble s.received (voltItems s.received) maxSubframesV s.snap.cellCnt.toNat s.snap.cellV

/-- The reassembly that OP_DECODE of a 0x96 response runs. -/
def State.tempRun (s : State) : Progress 9 4 :=
  reassemble s.received (tempItems s.received) maxSubframesT s.snap.sensCnt.toNat s.snap.temp

theorem execOpDecode_cellV {s : State} (h : s.Framed) (hc : s.rxBuf.read 2 = 0x95) :
    execOpDecode s = if cellCap < s.snap.cellCnt.toNat then .next (s.validated.raise .capacityExceeded)
      else .next ((s.validated.reportReassembly s.cellRun).onSnap fun p =>
        { p with cellV := markAbsent s.snap.cellCnt.toNat s.cellRun.dst }) := by
  obtain ⟨hr, h2⟩ := execOpDecode_row h hc
  rw [hr]
  have h0 : Sys2Proof.byteAt s.received 0 = syncByte := by rw [h.byteAt (by decide)]; exact h.2.1
  have hv := State.Framed.view (responseBlock_cellV h.received_length h0 h2)
  simp (decide := true) only [responseRow, h2, if_true, if_false, runDecoder, execRspCellV]
  rw [hv]
  simp [State.cellRun]

theorem execOpDecode_temps {s : State} (h : s.Framed) (hc : s.rxBuf.read 2 = 0x96) :
    execOpDecode s = if sensCap < s.snap.sensCnt.toNat then .next (s.validated.raise .capacityExceeded)
      else .next ((s.validated.reportReassembly s.tempRun).onSnap fun p =>
        { p with temp := markAbsent s.snap.sensCnt.toNat s.tempRun.dst }) := by
  obtain ⟨hr, h2⟩ := execOpDecode_row h hc
  rw [hr]
  have h0 : Sys2Proof.byteAt s.received 0 = syncByte := by rw [h.byteAt (by decide)]; exact h.2.1
  have hv := State.Framed.view (responseBlock_temps h.received_length h0 h2)
  simp (decide := true) only [responseRow, h2, if_true, if_false, runDecoder, execRspTemps]
  rw [hv]
  simp [State.tempRun]

theorem execOpDecode_bal {s : State} (h : s.Framed) (hc : s.rxBuf.read 2 = 0x97) :
    execOpDecode s = if balCap < s.snap.cellCnt.toNat then .next (s.validated.raise .capacityExceeded)
      else if s.rxLen < payloadOff + s.snap.cellCnt.toNat then .next (s.validated.raise .payloadOverrun)
      else .next (s.validated.onSnap fun p =>
        { p with
          bal := balSlots s.received s.snap.cellCnt.toNat, balAct := anyActive s.received s.snap.cellCnt.toNat
          p97 := true }) := by
  obtain ⟨hr, h2⟩ := execOpDecode_row h hc
  rw [hr]
  have h0 : Sys2Proof.byteAt s.received 0 = syncByte := by rw [h.byteAt (by decide)]; exact h.2.1
  have hv := State.Framed.view (responseBlock_bal h.received_length h0 h2)
  simp (decide := true) only [responseRow, h2, if_true, if_false, runDecoder, execRspBal]
  rw [hv]
  simp

theorem execOpDecode_alarm {s : State} (h : s.Framed) (hc : s.rxBuf.read 2 = 0x98) :
    execOpDecode s = .next (s.validated.onSnap fun p =>
      { p with alarm := Vector.ofFn fun k : Fin 8 => s.rxBuf.read (4 + k.val), p98 := true }) := by
  obtain ⟨hr, h2⟩ := execOpDecode_row h hc
  rw [hr]
  have : bytesFrom 8 s.received 4 = Vector.ofFn fun k : Fin 8 => s.rxBuf.read (4 + k.val) := by
    apply Vector.ext
    intro k hk
    rw [h.payload hk, Vector.getElem_ofFn]
  simp [responseRow, h2, this, runDecoder, execRspAlarm]

theorem execOpDecode_unknown {s : State} (h : s.Framed) (hc : namedCode (s.rxBuf.read 2) = false) :
    execOpDecode s = .next s.validated.setUnk := by
  obtain ⟨hr, h2⟩ := execOpDecode_row h rfl
  rw [hr]
  have hne : ∀ x : Byte, namedCode x = true → s.rxBuf.read 2 ≠ x := fun x hx e => by simp [e, hx] at hc
  simp only [responseRow, h2]
  rw [if_neg (hne _ (by decide)), if_neg (hne _ (by decide)), if_neg (hne _ (by decide)), if_neg (hne _ (by decide)),
    if_neg (hne _ (by decide)), if_neg (hne _ (by decide)), if_neg (hne _ (by decide)), if_neg (hne _ (by decide)),
    if_neg (hne _ (by decide))]
  rfl

/-- The ten codes that the dispatch tells apart (30_encoding.md R93). -/
theorem command_cases (c : Byte) :
    c = 0x90 ∨ c = 0x91 ∨ c = 0x92 ∨ c = 0x93 ∨ c = 0x94 ∨ c = 0x95 ∨ c = 0x96 ∨ c = 0x97 ∨ c = 0x98 ∨
      namedCode c = false := by
  revert c; decide

/-- Everything that OP_DECODE can do to a state, one case for each outcome (40_frame_codec.md R118, R119). -/
inductive Decoded (s : State) : State → Prop
  | rejected (h : ¬s.Framed) : Decoded s s.validated
  | soc (h : s.Framed) (hc : s.rxBuf.read 2 = 0x90) : Decoded s (s.validated.onSnap fun p =>
      { p with
        volt := be16 (s.rxBuf.read 4) (s.rxBuf.read 5), curr := currOf (be16 (s.rxBuf.read 8) (s.rxBuf.read 9))
        soc := be16 (s.rxBuf.read 10) (s.rxBuf.read 11), p90 := true })
  | cellMinMax (h : s.Framed) (hc : s.rxBuf.read 2 = 0x91) : Decoded s (s.validated.onSnap fun p =>
      { p with
        hiCell := be16 (s.rxBuf.read 4) (s.rxBuf.read 5), hiIdx := s.rxBuf.read 6
        loCell := be16 (s.rxBuf.read 7) (s.rxBuf.read 8), loIdx := s.rxBuf.read 9, p91 := true })
  | tempMinMax (h : s.Framed) (hc : s.rxBuf.read 2 = 0x92) : Decoded s (s.validated.onSnap fun p =>
      { p with
        tMax := tempOf (s.rxBuf.read (4 + s.cfg.offTMax.val)), tMin := tempOf (s.rxBuf.read (4 + s.cfg.offTMin.val))
        p92 := true })
  | mos (h : s.Framed) (hc : s.rxBuf.read 2 = 0x93) : Decoded s (s.validated.onSnap fun p =>
      { p with
        cdStat := s.rxBuf.read 4, chgMos := s.rxBuf.read 5, disMos := s.rxBuf.read 6
        remCap := be32 (s.rxBuf.read 8) (s.rxBuf.read 9) (s.rxBuf.read 10) (s.rxBuf.read 11), p93 := true })
  | status (h : s.Framed) (hc : s.rxBuf.read 2 = 0x94) : Decoded s (s.validated.onSnap fun p =>
      { p with
        cellCnt := s.rxBuf.read 4, sensCnt := s.rxBuf.read 5
        chgrStat := s.rxBuf.read (4 + s.cfg.offChgr.val), loadStat := s.rxBuf.read (4 + s.cfg.offLoad.val)
        dIn := ioInputs (s.rxBuf.read 8), dOut := ioOutputs (s.rxBuf.read 8), p94 := true })
  | cellVTooMany (h : s.Framed) (hc : s.rxBuf.read 2 = 0x95) (hn : 16 < s.snap.cellCnt.toNat) :
      Decoded s (s.validated.raise .capacityExceeded)
  | cellV (h : s.Framed) (hc : s.rxBuf.read 2 = 0x95) (hn : s.snap.cellCnt.toNat ≤ 16) :
      Decoded s ((s.validated.reportReassembly s.cellRun).onSnap fun p =>
        { p with cellV := markAbsent s.snap.cellCnt.toNat s.cellRun.dst })
  | tempsTooMany (h : s.Framed) (hc : s.rxBuf.read 2 = 0x96) (hn : 4 < s.snap.sensCnt.toNat) :
      Decoded s (s.validated.raise .capacityExceeded)
  | temps (h : s.Framed) (hc : s.rxBuf.read 2 = 0x96) (hn : s.snap.sensCnt.toNat ≤ 4) :
      Decoded s ((s.validated.reportReassembly s.tempRun).onSnap fun p =>
        { p with temp := markAbsent s.snap.sensCnt.toNat s.tempRun.dst })
  | balTooMany (h : s.Framed) (hc : s.rxBuf.read 2 = 0x97) (hn : 16 < s.snap.cellCnt.toNat) :
      Decoded s (s.validated.raise .capacityExceeded)
  | balOverrun (h : s.Framed) (hc : s.rxBuf.read 2 = 0x97) (hn : s.snap.cellCnt.toNat ≤ 16)
      (hm : s.rxLen < 4 + s.snap.cellCnt.toNat) : Decoded s (s.validated.raise .payloadOverrun)
  | bal (h : s.Framed) (hc : s.rxBuf.read 2 = 0x97) (hn : s.snap.cellCnt.toNat ≤ 16)
      (hm : 4 + s.snap.cellCnt.toNat ≤ s.rxLen) : Decoded s (s.validated.onSnap fun p =>
        { p with
          bal := balSlots s.received s.snap.cellCnt.toNat, balAct := anyActive s.received s.snap.cellCnt.toNat
          p97 := true })
  | alarm (h : s.Framed) (hc : s.rxBuf.read 2 = 0x98) : Decoded s (s.validated.onSnap fun p =>
      { p with alarm := Vector.ofFn fun k : Fin 8 => s.rxBuf.read (4 + k.val), p98 := true })
  | unknown (h : s.Framed) (hc : namedCode (s.rxBuf.read 2) = false) : Decoded s s.validated.setUnk

/-- The case analysis of OP_DECODE. -/
theorem execOpDecode_cases {s t : State} (e : execOpDecode s = .next t) : Decoded s t := by
  by_cases h : s.Framed
  · rcases command_cases (s.rxBuf.read 2) with c | c | c | c | c | c | c | c | c | c
    · rw [execOpDecode_soc h c] at e; cases e; exact .soc h c
    · rw [execOpDecode_cellMinMax h c] at e; cases e; exact .cellMinMax h c
    · rw [execOpDecode_tempMinMax h c] at e; cases e; exact .tempMinMax h c
    · rw [execOpDecode_mos h c] at e; cases e; exact .mos h c
    · rw [execOpDecode_status h c] at e; cases e; exact .status h c
    · rw [execOpDecode_cellV h c] at e
      split at e <;> rename_i hn <;> cases e
      · exact .cellVTooMany h c hn
      · exact .cellV h c (Nat.le_of_not_lt hn)
    · rw [execOpDecode_temps h c] at e
      split at e <;> rename_i hn <;> cases e
      · exact .tempsTooMany h c hn
      · exact .temps h c (Nat.le_of_not_lt hn)
    · rw [execOpDecode_bal h c] at e
      split at e
      · rename_i hn; cases e; exact .balTooMany h c hn
      · rename_i hn
        split at e <;> rename_i hm <;> cases e
        · exact .balOverrun h c (Nat.le_of_not_lt hn) hm
        · exact .bal h c (Nat.le_of_not_lt hn) (Nat.le_of_not_lt hm)
    · rw [execOpDecode_alarm h c] at e; cases e; exact .alarm h c
    · rw [execOpDecode_unknown h c] at e; cases e; exact .unknown h c
  · rw [execOpDecode_invalid h] at e; cases e; exact .rejected h

/-! ### What the two reassemblies report -/

/-- D95 over the received bytes, within capacity: the slots, and RA_* and SEQMIS (42_reassembler.md R178). -/
theorem cellRun_reports {s : State} (h : s.Framed) (hn : s.snap.cellCnt.toNat ≤ 16) :
    let n := min 16 (s.rxLen / 13)
    let count := s.snap.cellCnt.toNat
    let b := s.rxBuf.read
    let placed := placedItems b (voltageItems b) n count
    let cellV := markAbsent count s.cellRun.dst
    SlotsAfter placed count s.snap.cellV cellV ∧
    ReportsReassembly b 3 n count placed.length
      ((s.validated.reportReassembly s.cellRun).onSnap fun p => { p with cellV := cellV }) := by
  have := reassemble_reports voltItems voltageItems voltItems_eq 3 16 s.snap.cellCnt.toNat
    (fun v i => voltItems_length v i) (by omega) hn hn s.snap.cellV s.received s.rxBuf.read
    (fun a ha => s.byteAt_received (by simpa using ha))
    (fun n hn i hi => voltageItems_congr fun o h1 h2 => s.byteAt_received (by rw [State.received_length] at hn; omega))
    s.validated
  rw [State.received_length] at this
  exact ⟨this.1, this.2 (by rw [h.status]) _ (by simp [State.cellRun, maxSubframesV])
    (by simp [State.cellRun, maxSubframesV])⟩

/-- D96 over the received bytes, within capacity: the slots, and RA_* and SEQMIS (R179). -/
theorem tempRun_reports {s : State} (h : s.Framed) (hn : s.snap.sensCnt.toNat ≤ 4) :
    let n := min 3 (s.rxLen / 13)
    let count := s.snap.sensCnt.toNat
    let b := s.rxBuf.read
    let placed := placedItems b (temperatureItems b) n count
    let temp := markAbsent count s.tempRun.dst
    SlotsAfter placed count s.snap.temp temp ∧
    ReportsReassembly b 7 n count placed.length
      ((s.validated.reportReassembly s.tempRun).onSnap fun p => { p with temp := temp }) := by
  have := reassemble_reports tempItems temperatureItems tempItems_eq 7 3 s.snap.sensCnt.toNat
    (fun v i => tempItems_length v i) (by omega) (by omega) hn s.snap.temp s.received s.rxBuf.read
    (fun a ha => s.byteAt_received (by simpa using ha))
    (fun n hn i hi => temperatureItems_congr fun o h1 h2 =>
      s.byteAt_received (by rw [State.received_length] at hn; omega)) s.validated
  rw [State.received_length] at this
  exact ⟨this.1, this.2 (by rw [h.status]) _ (by simp [State.tempRun, maxSubframesT])
    (by simp [State.tempRun, maxSubframesT])⟩

end Sys2Proof.Machine
end

