-- ==== Sys2Proof/Laws/HostContract.lean ====
section
/-! SUPPORT. What the host's functions can do: sequences of operations, the moves of the poll loop, the probe and the
scan. Later proofs cite these instead of unfolding the functions. -/

namespace Sys2Proof.Machine

/-! ### Sequences of operations -/

@[simp] theorem runOps_nil (s : State) : runOps [] s = .next s := rfl

theorem runOps_cons {op : HostOp} {s t : State} (h : exec op.instr s = .next t) (ops : List HostOp) :
    runOps (op :: ops) s = runOps ops t := by
  simp [runOps, h]

/-- One sequence after another. -/
theorem runOps_append {ops : List HostOp} {s t : State} (h : runOps ops s = .next t) (more : List HostOp) :
    runOps (ops ++ more) s = runOps more t := by
  induction ops generalizing s with
  | nil => cases h; rfl
  | cons op ops ih =>
    simp only [List.cons_append, runOps] at h ⊢
    split at h
    · exact ih h
    · cases h
    · cases h

/-- No operation writes the parameters (10_state.md R20). -/
theorem exec_op_cfg {op : HostOp} {s t : State} (h : exec op.instr s = .next t) : t.cfg = s.cfg := by
  rcases exec_op_cases h with ⟨_, rfl⟩ | ⟨_, _, rfl⟩ | ⟨_, _, rfl⟩ | ⟨_, _, _, rfl⟩ | ⟨_, rfl⟩ | ⟨_, hd⟩
  · rfl
  · rfl
  · rfl
  · rfl
  · simp
  · obtain ⟨u, e, f⟩ := execOpDecode_next s
    rw [hd] at e
    cases e
    rw [f]

/-- OP_LOAD of a read within RXCAP goes on (40_frame_codec.md R113). -/
theorem exec_load {s : State} {bs : List Byte} (h : bs.length ≤ s.cfg.rxCap) :
    exec (HostOp.load bs).instr s = .next (s.loadRx bs) := by
  simp [HostOp.instr, exec, execOpLoad, Nat.not_lt.mpr h]

/-- Every operation of the host but an oversized OP_LOAD goes on. -/
theorem exec_op_next (op : HostOp) (s : State) (h : ∀ bs, op = .load bs → bs.length ≤ s.cfg.rxCap) :
    ∃ t, exec op.instr s = .next t := by
  cases op with
  | load bs => exact ⟨_, exec_load (h bs rfl)⟩
  | decode =>
    obtain ⟨t, e, -⟩ := execOpDecode_next s
    exact ⟨t, e⟩
  | _ => exact ⟨_, rfl⟩

/-! ### The poll loop -/

theorem issueThen_next {p : Poller} {op : HostOp} {t : State} (h : exec op.instr p.bfu = .next t) (phase : PollPhase) :
    issueThen p op phase = .next { p with phase := phase, bfu := t } := by
  simp [issueThen, h]

theorem pollFor_succ {reads : Nat → Vector (Option (List Byte)) 9} {p q : Poller} (h : pollStep reads p = .next q)
    (n : Nat) : pollFor reads (n + 1) p = pollFor reads n q := by
  simp [pollFor, h]

/-- Some moves, then more. -/
theorem pollFor_add {reads : Nat → Vector (Option (List Byte)) 9} {m : Nat} {p q : Poller}
    (h : pollFor reads m p = .next q) (n : Nat) : pollFor reads (m + n) p = pollFor reads n q := by
  induction m generalizing p with
  | zero => cases h; rw [Nat.zero_add]
  | succ m ih =>
    rw [Nat.add_right_comm]
    simp only [pollFor] at h ⊢
    split at h
    · exact ih h
    · cases h
    · cases h

/-- Everything that one move of the host can do (R193, R195). -/
inductive Polled (reads : Nat → Vector (Option (List Byte)) 9) (p : Poller) : Poller → Prop
  | init (h : p.phase = .init) {t : State} (e : exec (HostOp.encode pollCodes[0]).instr p.bfu = .next t) :
      Polled reads p { p with phase := .awaitResponse 0, bfu := t }
  | noRead (k : Fin 9) (h : p.phase = .awaitResponse k) (hr : (reads p.cycles)[k] = none) :
      Polled reads p { p with phase := .nextRequest k }
  | read (k : Fin 9) (h : p.phase = .awaitResponse k) (bs : List Byte) (hr : (reads p.cycles)[k] = some bs) {t : State}
      (e : exec (HostOp.load bs).instr p.bfu = .next t) : Polled reads p { p with phase := .decode k, bfu := t }
  | decode (k : Fin 9) (h : p.phase = .decode k) {t : State} (e : exec HostOp.decode.instr p.bfu = .next t) :
      Polled reads p { p with phase := .nextRequest k, bfu := t }
  | next (k : Fin 9) (h : p.phase = .nextRequest k) (hk : k.val + 1 < 9) {t : State}
      (e : exec (HostOp.encode pollCodes[k.val + 1]).instr p.bfu = .next t) :
      Polled reads p { p with phase := .awaitResponse ⟨k.val + 1, hk⟩, bfu := t }
  | last (k : Fin 9) (h : p.phase = .nextRequest k) (hk : ¬k.val + 1 < 9) :
      Polled reads p { p with phase := .cycleComplete }
  | complete (h : p.phase = .cycleComplete) : Polled reads p { p with phase := .init, cycles := p.cycles + 1 }

/-- With reads within RXCAP every move goes on, in one of these ways. -/
theorem pollStep_next {reads : Nat → Vector (Option (List Byte)) 9} {p : Poller}
    (h : ∀ (k : Fin 9) (bs : List Byte), (reads p.cycles)[k] = some bs → bs.length ≤ p.bfu.cfg.rxCap) :
    ∃ q, pollStep reads p = .next q ∧ Polled reads p q := by
  cases hp : p.phase with
  | init => exact ⟨_, by simp only [pollStep, hp]; exact issueThen_next rfl _, .init hp rfl⟩
  | awaitResponse k =>
    cases hr : (reads p.cycles)[k] with
    | none => exact ⟨_, by simp only [pollStep, hp, hr], .noRead k hp hr⟩
    | some bs =>
      have e := exec_load (h k bs hr)
      exact ⟨_, by simp only [pollStep, hp, hr]; exact issueThen_next e _, .read k hp bs hr e⟩
  | decode k =>
    obtain ⟨t, e⟩ := exec_op_next .decode p.bfu (fun _ h => by cases h)
    exact ⟨_, by simp only [pollStep, hp]; exact issueThen_next e _, .decode k hp e⟩
  | nextRequest k =>
    by_cases hk : k.val + 1 < 9
    · exact ⟨_, by simp only [pollStep, hp, dif_pos hk]; exact issueThen_next rfl _, .next k hp hk rfl⟩
    · exact ⟨_, by simp only [pollStep, hp, dif_neg hk], .last k hp hk⟩
  | cycleComplete => exact ⟨_, by simp only [pollStep, hp], .complete hp⟩

/-! ### Probe and scan -/

@[simp] theorem afterProbes_nil (s : State) : afterProbes [] s = s := rfl

@[simp] theorem afterProbes_cons (read : Option (List Byte)) (reads : List (Option (List Byte))) (s : State) :
    afterProbes (read :: reads) s = afterProbes reads (probe s read).1 := rfl

@[simp] theorem scanFrom_nil (n : Nat) (s : State) :
    scanFrom n [] s = { found := none, closed := [], state := s } := rfl

theorem scanFrom_accept {read : Option (List Byte)} {s : State} (h : (probe s read).2 = true) (n : Nat)
    (reads : List (Option (List Byte))) :
    scanFrom n (read :: reads) s = { found := some n, closed := [], state := (probe s read).1 } := by
  obtain ⟨t, hp⟩ : ∃ t, probe s read = (t, true) := ⟨_, Prod.ext rfl h⟩
  simp [scanFrom, hp]

theorem scanFrom_reject {read : Option (List Byte)} {s : State} (h : (probe s read).2 = false) (n : Nat)
    (reads : List (Option (List Byte))) :
    scanFrom n (read :: reads) s =
      let r := scanFrom (n + 1) reads (probe s read).1
      { r with closed := n :: r.closed } := by
  obtain ⟨t, hp⟩ : ∃ t, probe s read = (t, false) := ⟨_, Prod.ext rfl h⟩
  simp [scanFrom, hp]

/-- A probe of a read within RXCAP loads it and validates it (R191). -/
theorem probe_some {s : State} {bs : List Byte} (h : bs.length ≤ s.cfg.rxCap) :
    probe s (some bs) =
      let t := ((s.storeTx (requestFrame probeCmd)).loadRx bs).validated
      (t, t.acceptsProbe) := by
  have e : exec (HostOp.load bs).instr (s.storeTx (requestFrame probeCmd))
      = .next ((s.storeTx (requestFrame probeCmd)).loadRx bs) := exec_load h
  simp only [probe, probeOps]
  rw [runOps_cons (t := s.storeTx (requestFrame probeCmd)) rfl, runOps_cons e, runOps_cons rfl]
  rfl

end Sys2Proof.Machine
end

