-- ==== Sys2Proof/Laws/PerInstr.lean ====
section
/-! SUPPORT. Statements made per instruction, one lemma per constructor. -/

namespace Sys2Proof.Laws.FrameShape

/-- A frame row, request or response, has 13 bytes, of which byte 0 is the sync byte (30_encoding.md R80, R82); a host
operation has none (R99). -/
def Statement (i : Instr) : Prop :=
  match encode i with
  | some bs => (i.isRequest || i.isResponse) = true ∧ bs.length = blockLen ∧ byteAt bs 0 = syncByte
  | none => (i.isRequest || i.isResponse) = false

theorem reqAny (cmd : Byte) : Statement (.reqAny cmd) := ⟨rfl, rfl, rfl⟩
theorem reqSoc : Statement .reqSoc := ⟨rfl, rfl, rfl⟩
theorem reqCellMinMax : Statement .reqCellMinMax := ⟨rfl, rfl, rfl⟩
theorem reqTempMinMax : Statement .reqTempMinMax := ⟨rfl, rfl, rfl⟩
theorem reqMos : Statement .reqMos := ⟨rfl, rfl, rfl⟩
theorem reqStatus : Statement .reqStatus := ⟨rfl, rfl, rfl⟩
theorem reqCellV : Statement .reqCellV := ⟨rfl, rfl, rfl⟩
theorem reqTemps : Statement .reqTemps := ⟨rfl, rfl, rfl⟩
theorem reqBal : Statement .reqBal := ⟨rfl, rfl, rfl⟩
theorem reqAlarm : Statement .reqAlarm := ⟨rfl, rfl, rfl⟩

theorem rspSoc (addr len : Byte) (volt unread curr soc : Half) (b12 : Byte) :
    Statement (.rspSoc addr len volt unread curr soc b12) := ⟨rfl, rfl, rfl⟩
theorem rspCellMinMax (addr len : Byte) (hiCell : Half) (hiIdx : Byte) (loCell : Half) (loIdx : Byte) (unread : Half)
    (b12 : Byte) : Statement (.rspCellMinMax addr len hiCell hiIdx loCell loIdx unread b12) := ⟨rfl, rfl, rfl⟩
theorem rspTempMinMax (addr len : Byte) (payload : Vector Byte 8) (b12 : Byte) :
    Statement (.rspTempMinMax addr len payload b12) := ⟨rfl, by simp [responseBlock, blockLen], rfl⟩
theorem rspMos (addr len cdStat chgMos disMos unread : Byte) (remCap : Word32) (b12 : Byte) :
    Statement (.rspMos addr len cdStat chgMos disMos unread remCap b12) := ⟨rfl, rfl, rfl⟩
theorem rspStatus (addr len : Byte) (payload : Vector Byte 8) (b12 : Byte) :
    Statement (.rspStatus addr len payload b12) := ⟨rfl, by simp [responseBlock, blockLen], rfl⟩
theorem rspCellV (addr len seq : Byte) (item0 item1 item2 : Half) (unread b12 : Byte) :
    Statement (.rspCellV addr len seq item0 item1 item2 unread b12) := ⟨rfl, rfl, rfl⟩
theorem rspTemps (addr len seq : Byte) (items : Vector Byte 7) (b12 : Byte) :
    Statement (.rspTemps addr len seq items b12) := ⟨rfl, by simp [responseBlock, blockLen], rfl⟩
theorem rspBal (addr len : Byte) (cells : Vector Byte 8) (b12 : Byte) :
    Statement (.rspBal addr len cells b12) := ⟨rfl, by simp [responseBlock, blockLen], rfl⟩
theorem rspAlarm (addr len : Byte) (alarms : Vector Byte 8) (b12 : Byte) :
    Statement (.rspAlarm addr len alarms b12) := ⟨rfl, by simp [responseBlock, blockLen], rfl⟩
theorem rspUnknown (addr cmd len : Byte) (payload : Vector Byte 8) (b12 : Byte) :
    Statement (.rspUnknown addr cmd len payload b12) := ⟨rfl, by simp [responseBlock, blockLen], rfl⟩

theorem opReset : Statement .opReset := rfl
theorem opSetAddr (a : Byte) : Statement (.opSetAddr a) := rfl
theorem opEncode (c : Byte) : Statement (.opEncode c) := rfl
theorem opLoad (bs : List Byte) : Statement (.opLoad bs) := rfl
theorem opValidate : Statement .opValidate := rfl
theorem opDecode : Statement .opDecode := rfl

end Sys2Proof.Laws.FrameShape
end

