-- ==== Sys2Proof/Tests/Slice0.lean ====
section
/-! SUPPORT. The model's own tests. Expected values come from the spec's tables and vectors (95_test_vectors.md V-…,
30_encoding.md R98); "witness" theorems show a state and operands that meet the hypotheses of an obligation. -/

namespace Sys2Proof.Tests

open Sys2Proof Sys2Proof.Machine

/-! ### WellFormed refuses -/

theorem test_wf_named_code_in_template : (Instr.reqAny 0x90).wellFormed .standard = false := by decide
theorem test_wf_named_code_in_template_last : (Instr.reqAny 0x98).wellFormed .standard = false := by decide
theorem test_wf_named_code_in_fallback : (Instr.rspUnknown 1 0x98 8 #v[0, 0, 0, 0, 0, 0, 0, 0] 0).wellFormed .standard
    = false := by decide
theorem test_wf_load_too_long (bs : List Byte) (h : bs.length = 209) :
    (Instr.opLoad bs).wellFormed .standard = false := by simp [Instr.wellFormed, Config.standard, h]
theorem test_wf_load_longest (bs : List Byte) (h : bs.length = 208) :
    (Instr.opLoad bs).wellFormed .standard = true := by simp [Instr.wellFormed, Config.standard, h]
theorem test_wf_codes_around_the_named : (Instr.reqAny 0x8F).wellFormed .standard = true ∧
    (Instr.reqAny 0x99).wellFormed .standard = true := by decide

/-! ### The constraints of the parameters (92_eei_decisions.md) -/

theorem test_config_standard : Config.standard.ok = true := by decide
theorem test_config_small_buffer : { Config.standard with rxCap := 207 }.ok = false := by decide
theorem test_config_equal_offsets : { Config.standard with offTMin := 0 }.ok = false := by decide
theorem test_config_charger_offset : { Config.standard with offChgr := 4 }.ok = false := by decide

/-! ### Decoding, one written-out word for every frame row -/

theorem test_decode_reqAny : decode [0xA5, 0x40, 0xFF, 0x08, 0, 0, 0, 0, 0, 0, 0, 0, 0xEC] = .ok (.reqAny 0xFF) := by
  decide
theorem test_decode_reqSoc : decode [0xA5, 0x40, 0x90, 0x08, 0, 0, 0, 0, 0, 0, 0, 0, 0x7D] = .ok .reqSoc := by decide
theorem test_decode_reqCellMinMax : decode [0xA5, 0x40, 0x91, 0x08, 0, 0, 0, 0, 0, 0, 0, 0, 0x7E] = .ok .reqCellMinMax := by
  decide
theorem test_decode_reqTempMinMax : decode [0xA5, 0x40, 0x92, 0x08, 0, 0, 0, 0, 0, 0, 0, 0, 0x7F] = .ok .reqTempMinMax := by
  decide
theorem test_decode_reqMos : decode [0xA5, 0x40, 0x93, 0x08, 0, 0, 0, 0, 0, 0, 0, 0, 0x80] = .ok .reqMos := by decide
theorem test_decode_reqStatus : decode [0xA5, 0x40, 0x94, 0x08, 0, 0, 0, 0, 0, 0, 0, 0, 0x81] = .ok .reqStatus := by decide
theorem test_decode_reqCellV : decode [0xA5, 0x40, 0x95, 0x08, 0, 0, 0, 0, 0, 0, 0, 0, 0x82] = .ok .reqCellV := by decide
theorem test_decode_reqTemps : decode [0xA5, 0x40, 0x96, 0x08, 0, 0, 0, 0, 0, 0, 0, 0, 0x83] = .ok .reqTemps := by decide
theorem test_decode_reqBal : decode [0xA5, 0x40, 0x97, 0x08, 0, 0, 0, 0, 0, 0, 0, 0, 0x84] = .ok .reqBal := by decide
theorem test_decode_reqAlarm : decode [0xA5, 0x40, 0x98, 0x08, 0, 0, 0, 0, 0, 0, 0, 0, 0x85] = .ok .reqAlarm := by decide

/-- V-D10. -/
theorem test_decode_rspSoc : decode [0xA5, 0x01, 0x90, 0x08, 0x02, 0x0D, 0x02, 0x0D, 0x74, 0xCC, 0x03, 0x52, 0xF1]
    = .ok (.rspSoc 0x01 0x08 525 525 29900 850 0xF1) := by decide
/-- V-D26. -/
theorem test_decode_rspCellMinMax :
    decode [0xA5, 0x01, 0x91, 0x08, 0xFF, 0xFF, 0xFF, 0x00, 0x00, 0x00, 0x12, 0x34, 0x82]
      = .ok (.rspCellMinMax 0x01 0x08 65535 255 0 0 0x1234 0x82) := by decide
/-- V-D27. -/
theorem test_decode_rspTempMinMax :
    decode [0xA5, 0x01, 0x92, 0x08, 0x3C, 0x01, 0x28, 0x02, 0x00, 0x00, 0x00, 0x00, 0xA7]
      = .ok (.rspTempMinMax 0x01 0x08 #v[0x3C, 0x01, 0x28, 0x02, 0, 0, 0, 0] 0xA7) := by decide
/-- V-D30. -/
theorem test_decode_rspMos : decode [0xA5, 0x01, 0x93, 0x08, 0x02, 0x00, 0x01, 0x7F, 0xFF, 0xFF, 0xFF, 0xFF, 0xBF]
    = .ok (.rspMos 0x01 0x08 2 0 1 0x7F 4294967295 0xBF) := by decide
/-- V-D31. -/
theorem test_decode_rspStatus : decode [0xA5, 0x01, 0x94, 0x08, 0x05, 0x02, 0x01, 0x00, 0x21, 0x00, 0x00, 0x00, 0x6B]
    = .ok (.rspStatus 0x01 0x08 #v[5, 2, 1, 0, 0x21, 0, 0, 0] 0x6B) := by decide
/-- V-S4, block 1. -/
theorem test_decode_rspCellV : decode [0xA5, 0x01, 0x95, 0x08, 0x02, 0x0C, 0xE7, 0x0C, 0xE8, 0xFF, 0xFF, 0x00, 0x2A]
    = .ok (.rspCellV 0x01 0x08 2 3303 3304 65535 0 0x2A) := by decide
/-- V-D47. -/
theorem test_decode_rspTemps : decode [0xA5, 0x01, 0x96, 0x08, 0x01, 0x00, 0x28, 0xFF, 0x41, 0x99, 0x99, 0x99, 0x78]
    = .ok (.rspTemps 0x01 0x08 1 #v[0x00, 0x28, 0xFF, 0x41, 0x99, 0x99, 0x99] 0x78) := by decide
/-- V-D52. -/
theorem test_decode_rspBal : decode [0xA5, 0x01, 0x97, 0x08, 0, 0, 0, 0, 0, 0, 0, 0x80, 0xC5]
    = .ok (.rspBal 0x01 0x08 #v[0, 0, 0, 0, 0, 0, 0, 0x80] 0xC5) := by decide
/-- V-D59. -/
theorem test_decode_rspAlarm : decode [0xA5, 0x01, 0x98, 0x08, 0xFF, 0x00, 0x01, 0x80, 0xA5, 0x5A, 0x0F, 0xF0, 0xC4]
    = .ok (.rspAlarm 0x01 0x08 #v[0xFF, 0x00, 0x01, 0x80, 0xA5, 0x5A, 0x0F, 0xF0] 0xC4) := by decide
/-- V-D60. -/
theorem test_decode_rspUnknown : decode [0xA5, 0x01, 0x99, 0x08, 1, 2, 3, 4, 5, 6, 7, 8, 0x6B]
    = .ok (.rspUnknown 0x01 0x99 0x08 #v[1, 2, 3, 4, 5, 6, 7, 8] 0x6B) := by decide

/-- V-D13 and V-D15: what is no response. -/
theorem test_decode_rejects :
    decode [0xA5, 0x01, 0x90, 0x08, 0x02, 0x0D, 0x02, 0x0D, 0x74, 0xCC, 0x03, 0x52] = .error .frameTooShort ∧
    decode [0x00, 0x02, 0x90, 0x08, 0, 0, 0, 0, 0, 0, 0, 0, 0x3F] = .error .badSync := by decide

/-- A 0x90 request with a wrong last byte is no REQ.SOC (its mask covers byte 12); the receive side does not check
byte 12. -/
theorem test_decode_wrong_checksum : decode [0xA5, 0x40, 0x90, 0x08, 0, 0, 0, 0, 0, 0, 0, 0, 0x7C]
    = .ok (.rspSoc 0x40 0x08 0 0 0 0 0x7C) := by decide

/-- Table words: byte 0 holds the least significant bits. REQ.ANY's word in the table has code 0 and leaves byte 12 out
of the mask. -/
theorem test_table_words :
    decodeTableWord 104 0x7D0000000000000000089040A5 = some .reqSoc ∧
    decodeTableWord 104 0x00000000000000000008_0040A5 = some (.reqAny 0x00) ∧
    decodeTableWord 104 0x0000000000000000000000_98_00A5
      = some (.rspAlarm 0 0 #v[0, 0, 0, 0, 0, 0, 0, 0] 0) := by decide

/-! ### Running -/

/-- The state an outcome leads to, or the reset state. -/
def after : Host.Outcome State Fault Refusal → State
  | .next t => t
  | .fault _ => State.reset
  | .refused _ => State.reset

/-- The machine from reset with counts and received bytes in place. -/
def got (cells sensors : Byte) (bs : List Byte) : State :=
  (State.reset.loadRx bs).onSnap fun p => { p with cellCnt := cells, sensCnt := sensors, p94 := true }

/-- OP_DECODE of received bytes. -/
def decoded (cells sensors : Byte) (bs : List Byte) : State := after (exec .opDecode (got cells sensors bs))

/-- TXBUF after an instruction from reset. -/
def sent (i : Instr) : List Byte := (List.range 13).map (after (exec i State.reset)).txBuf.read

/-- The values of the present slots. -/
def values {w n : Nat} (v : Vector (Slot w) n) : List (Option (BitVec w)) := v.toList.map Slot.value

/-- V-D5 and V-D6. -/
theorem test_opEncode : sent (.opEncode 0x12) = [0xA5, 0x40, 0x12, 0x08, 0, 0, 0, 0, 0, 0, 0, 0, 0xFF] ∧
    sent (.opEncode 0x13) = [0xA5, 0x40, 0x13, 0x08, 0, 0, 0, 0, 0, 0, 0, 0, 0x00] := by decide
/-- V-D4 and V-D7. -/
theorem test_reqAny : sent (.reqAny 0x00) = [0xA5, 0x40, 0x00, 0x08, 0, 0, 0, 0, 0, 0, 0, 0, 0xED] ∧
    sent (.reqAny 0xFF) = [0xA5, 0x40, 0xFF, 0x08, 0, 0, 0, 0, 0, 0, 0, 0, 0xEC] := by decide
theorem test_reqSoc : sent .reqSoc = [0xA5, 0x40, 0x90, 0x08, 0, 0, 0, 0, 0, 0, 0, 0, 0x7D] := by decide
theorem test_reqCellMinMax : sent .reqCellMinMax = [0xA5, 0x40, 0x91, 0x08, 0, 0, 0, 0, 0, 0, 0, 0, 0x7E] := by decide
theorem test_reqTempMinMax : sent .reqTempMinMax = [0xA5, 0x40, 0x92, 0x08, 0, 0, 0, 0, 0, 0, 0, 0, 0x7F] := by decide
theorem test_reqMos : sent .reqMos = [0xA5, 0x40, 0x93, 0x08, 0, 0, 0, 0, 0, 0, 0, 0, 0x80] := by decide
theorem test_reqStatus : sent .reqStatus = [0xA5, 0x40, 0x94, 0x08, 0, 0, 0, 0, 0, 0, 0, 0, 0x81] := by decide
theorem test_reqCellV : sent .reqCellV = [0xA5, 0x40, 0x95, 0x08, 0, 0, 0, 0, 0, 0, 0, 0, 0x82] := by decide
theorem test_reqTemps : sent .reqTemps = [0xA5, 0x40, 0x96, 0x08, 0, 0, 0, 0, 0, 0, 0, 0, 0x83] := by decide
theorem test_reqBal : sent .reqBal = [0xA5, 0x40, 0x97, 0x08, 0, 0, 0, 0, 0, 0, 0, 0, 0x84] := by decide
theorem test_reqAlarm : sent .reqAlarm = [0xA5, 0x40, 0x98, 0x08, 0, 0, 0, 0, 0, 0, 0, 0, 0x85] := by decide

/-- V-D8. -/
theorem test_opSetAddr : exec (.opSetAddr 0x40) State.reset = .next { State.reset with expAddr := 0x40 } := rfl

/-- The bytes of V-D10. -/
def goodSoc : List Byte := [0xA5, 0x01, 0x90, 0x08, 0x02, 0x0D, 0x02, 0x0D, 0x74, 0xCC, 0x03, 0x52, 0xF1]

/-- V-D8: a load, and an empty load that leaves the buffer. -/
theorem test_opLoad :
    let t := after (exec (.opLoad goodSoc) State.reset)
    t.rxLen = 13 ∧ t.rxBuf.read 12 = 0xF1 ∧ t.rxBuf.read 13 = 0x00 ∧ t.status = .clear ∧
    (after (exec (.opLoad []) t)).rxLen = 0 ∧ (after (exec (.opLoad []) t)).rxBuf = t.rxBuf := by decide
theorem test_opLoad_refused (bs : List Byte) (h : bs.length = 209) :
    exec (.opLoad bs) State.reset = .refused (.loadTooLong 209 208) := by
  simp [exec, execOpLoad, State.reset, Config.standard, h]

/-- V-D17: a wrong last byte is accepted. -/
theorem test_opValidate_accepts :
    let t := after (exec .opValidate (got 0 0
      [0xA5, 0x01, 0x90, 0x08, 0x02, 0x0D, 0x02, 0x0D, 0x74, 0xCC, 0x03, 0x52, 0x00]))
    t.status = ⟨0, true, false, false, false⟩ ∧ t.hdr = ⟨0x01, 0x90, 0x08, 0x00⟩ ∧ t.snap.p90 = false := by decide
/-- V-D12, V-D15 and V-D16. -/
theorem test_opValidate_rejects :
    (after (exec .opValidate (got 0 0 []))).status = ⟨1, false, false, false, false⟩ ∧
    (after (exec .opValidate (got 0 0 [0x00, 0x02, 0x90, 0x08, 0, 0, 0, 0, 0, 0, 0, 0, 0x3F]))).status
      = ⟨2, false, false, false, false⟩ ∧
    (after (exec .opValidate (got 0 0 [0xA5, 0x02, 0x90, 0x08, 0, 0, 0, 0, 0, 0, 0, 0, 0x3F]))).status
      = ⟨3, false, false, false, true⟩ := by decide

/-- V-D10: offsets 2 and 3 are not read; a negative current. -/
theorem test_rspSoc :
    let p := (decoded 0 0 goodSoc).snap
    p.volt = 525 ∧ p.curr.toInt = -100 ∧ p.soc = 850 ∧ p.p90 = true := by decide
/-- V-D21 and V-D22: the ends of the current's range. -/
theorem test_rspSoc_range :
    (decoded 0 0 [0xA5, 0x01, 0x90, 0x08, 0xFF, 0xFF, 0, 0, 0, 0, 0xFF, 0xFF, 0x3A]).snap.curr.toInt = -30000 ∧
    (decoded 0 0 [0xA5, 0x01, 0x90, 0x08, 0, 0, 0, 0, 0xFF, 0xFF, 0, 0, 0x3C]).snap.curr.toInt = 35535 := by decide
/-- V-D25. -/
theorem test_rspCellMinMax :
    let p := (decoded 0 0 [0xA5, 0x01, 0x91, 0x08, 0x0D, 0x2F, 0x03, 0x0C, 0xE4, 0x07, 0, 0, 0x75]).snap
    p.hiCell = 3375 ∧ p.hiIdx = 3 ∧ p.loCell = 3300 ∧ p.loIdx = 7 ∧ p.p91 = true := by decide
/-- V-D28. -/
theorem test_rspTempMinMax :
    let p := (decoded 0 0 [0xA5, 0x01, 0x92, 0x08, 0xFF, 0x01, 0x00, 0x02, 0, 0, 0, 0, 0x42]).snap
    p.tMax.toInt = 215 ∧ p.tMin.toInt = -40 ∧ p.p92 = true := by decide
/-- V-D27 with the offsets exchanged. -/
theorem test_rspTempMinMax_offsets :
    let s := got 0 0 [0xA5, 0x01, 0x92, 0x08, 0x3C, 0x01, 0x28, 0x02, 0, 0, 0, 0, 0xA7]
    let p := (after (exec .opDecode { s with cfg := { s.cfg with offTMax := 2, offTMin := 0 } })).snap
    p.tMax.toInt = 0 ∧ p.tMin.toInt = 20 := by decide
/-- V-D30. -/
theorem test_rspMos :
    let p := (decoded 0 0 [0xA5, 0x01, 0x93, 0x08, 0x02, 0x00, 0x01, 0x7F, 0xFF, 0xFF, 0xFF, 0xFF, 0xBF]).snap
    p.cdStat = 2 ∧ p.chgMos = 0 ∧ p.disMos = 1 ∧ p.remCap.toNat = 4294967295 ∧ p.p93 = true := by decide
/-- V-D31. -/
theorem test_rspStatus :
    let p := (decoded 0 0 [0xA5, 0x01, 0x94, 0x08, 0x05, 0x02, 0x01, 0x00, 0x21, 0, 0, 0, 0x6B]).snap
    p.cellCnt = 5 ∧ p.sensCnt = 2 ∧ p.chgrStat = 1 ∧ p.loadStat = 0 ∧
    (List.finRange 4).map p.input = [true, false, false, false] ∧
    (List.finRange 4).map p.output = [false, true, false, false] ∧ p.p94 = true := by decide
/-- V-D34. -/
theorem test_rspStatus_oversized :
    let t := decoded 0 0 [0xA5, 0x01, 0x94, 0x08, 0x11, 0x05, 0x00, 0x00, 0x0A, 0, 0, 0, 0x62]
    t.snap.cellCnt = 17 ∧ t.snap.sensCnt = 5 ∧ t.status.err = 0 ∧
    (List.finRange 4).map t.snap.input = [false, true, false, true] := by decide
/-- V-S4: five cells in two subframes. -/
theorem test_rspCellV :
    let t := decoded 5 2 [0xA5, 0x01, 0x95, 0x08, 0x01, 0x0C, 0xE4, 0x0C, 0xE5, 0x0C, 0xE6, 0x00, 0x17,
      0xA5, 0x01, 0x95, 0x08, 0x02, 0x0C, 0xE7, 0x0C, 0xE8, 0xFF, 0xFF, 0x00, 0x2A]
    (values t.snap.cellV).take 6 = [some 3300, some 3301, some 3302, some 3303, some 3304, none] ∧
    t.ra = ⟨2, 0, 0⟩ ∧ t.status = ⟨0, true, false, false, true⟩ := by decide
/-- V-D35: dense placement after a skipped subframe. -/
theorem test_rspCellV_skip :
    let t := decoded 9 1 [0xA5, 0x01, 0x95, 0x08, 0x01, 0x0B, 0xB9, 0x0B, 0xBA, 0x0B, 0xBB, 0x00, 0x93,
      0xA5, 0x01, 0x95, 0x08, 0x09, 0x0B, 0xD1, 0x0B, 0xD2, 0x0B, 0xD3, 0x00, 0xE3,
      0xA5, 0x01, 0x95, 0x08, 0x03, 0x0B, 0xBF, 0x0B, 0xC0, 0x0B, 0xC1, 0x00, 0xA7]
    (values t.snap.cellV).take 7 = [some 3001, some 3002, some 3003, some 3007, some 3008, some 3009, none] ∧
    t.ra = ⟨3, 3, 1⟩ ∧ t.status = ⟨0, true, false, true, true⟩ := by decide
/-- V-D47. -/
theorem test_rspTemps :
    let t := decoded 5 4 [0xA5, 0x01, 0x96, 0x08, 0x01, 0x00, 0x28, 0xFF, 0x41, 0x99, 0x99, 0x99, 0x78]
    t.snap.temp.toList.map (fun x => x.value.map BitVec.toInt) = [some (-40), some 0, some 215, some 25] ∧
    t.ra = ⟨1, 0, 0⟩ := by decide
/-- V-D49: at most three subframes. -/
theorem test_rspTemps_maximum :
    let skipped : List Byte := [0xA5, 0x01, 0x96, 0x08, 0x09, 0x01, 0x01, 0, 0, 0, 0, 0, 0x4F]
    let t := decoded 5 2 (skipped ++ skipped ++ skipped
      ++ [0xA5, 0x01, 0x96, 0x08, 0x04, 0x30, 0x31, 0, 0, 0, 0, 0, 0xA9])
    values t.snap.temp = [none, none, none, none] ∧ t.status.seqmis = true ∧ t.ra = ⟨3, 2, 3⟩ := by decide
/-- V-D55: cells 8 to 15 lie past the payload of block 0. -/
theorem test_rspBal :
    let t := decoded 16 1 [0xA5, 0x01, 0x97, 0x08, 0, 0, 0, 0, 0, 0, 0, 0, 0x45, 0, 0, 0, 0, 0, 0, 0x02]
    values t.snap.bal = ([0, 0, 0, 0, 0, 0, 0, 0, 69, 0, 0, 0, 0, 0, 0, 2] : List Byte).map some ∧
    t.snap.balAct = true ∧ t.snap.p97 = true ∧ t.status.err = 0 := by decide
/-- V-D56 and V-D57. -/
theorem test_rspBal_errors :
    (decoded 16 1 [0xA5, 0x01, 0x97, 0x08, 0, 0, 0, 0, 0, 0, 0, 0, 0x45, 0, 0, 0, 0, 0, 0]).status
      = ⟨5, true, false, false, true⟩ ∧
    (decoded 17 1 [0xA5, 0x01, 0x97, 0x08, 0x01, 0, 0, 0, 0, 0, 0, 0, 0x46]).status
      = ⟨4, true, false, false, true⟩ := by decide
/-- V-S6, with the strings. -/
theorem test_rspAlarm :
    let p := (decoded 0 0 [0xA5, 0x01, 0x98, 0x08, 0xB0, 0, 0, 0, 0, 0, 0, 0x01, 0xF7]).snap
    p.alarm = #v[0xB0, 0, 0, 0, 0, 0, 0, 0x01] ∧ p.p98 = true ∧
    p.alarmStrings.bind (·[0]?) = some [0x31, 0x30, 0x31, 0x31, 0x30, 0x30, 0x30, 0x30] := by decide
/-- V-D60. -/
theorem test_rspUnknown :
    let t := decoded 0 0 [0xA5, 0x01, 0x99, 0x08, 1, 2, 3, 4, 5, 6, 7, 8, 0x6B]
    t.status = ⟨0, true, true, false, true⟩ ∧ t.hdr = ⟨0x01, 0x99, 0x08, 0x6B⟩ ∧
    t.snap = (got 0 0 []).snap := by decide
/-- V-D61: after an error the header is kept. -/
theorem test_opDecode_error :
    let t := decoded 0 0 goodSoc
    let u := after (exec .opDecode (t.loadRx [0x5A, 0x01, 0x90, 0x08, 0xFF, 0xFF, 0xFF, 0xFF, 0xFF, 0xFF, 0xFF, 0xFF, 0x36]))
    u.status = ⟨2, false, false, false, false⟩ ∧ u.hdr = t.hdr ∧ u.snap = t.snap := by decide
/-- V-D62. -/
theorem test_opReset : after (exec .opReset { decoded 0 0 goodSoc with expAddr := 0x02 }) = State.reset := by decide

/-! ### Placing a table word: the very next step runs its row -/

/-- A request word. -/
theorem test_place_request :
    (List.range 13).map (after (step (State.reset.withFetchWord 104 0x820000000000000000089540A5))).txBuf.read
      = [0xA5, 0x40, 0x95, 0x08, 0, 0, 0, 0, 0, 0, 0, 0, 0x82] := by decide
/-- The response word of V-D29, from device 0x07 (its address is placed with it). -/
theorem test_place_response :
    let t := after (step (State.reset.withFetchWord 104 0x57_50_C3_00_00_00_01_01_01_08_93_07_A5))
    t.snap.cdStat = 1 ∧ t.snap.remCap = 50000 ∧ t.snap.p93 = true ∧ t.hdr.addr = 0x07 ∧ t.pending = [] := by decide
/-- Nothing issued: idle. -/
theorem test_idle : step State.reset = .next State.reset := rfl

/-! ### Witnesses: the hypotheses of every obligation that has some are met -/

/-- A block with command code `c` from device 0x01, good framing, filled up with `bs`. -/
def block (c : Byte) (bs : List Byte) : List Byte := [0xA5, 0x01, c, 0x08] ++ bs

/-- A state over one 13-byte block of zero payload with command code `c`. -/
def one (cells sensors c : Byte) : State := got cells sensors (block c [0, 0, 0, 0, 0, 0, 0, 0, 0])

/-- A state over `n` received bytes with command code `c`. -/
def sized (cells sensors c : Byte) (n : Nat) : State := { one cells sensors c with rxLen := n }

theorem witness_RequestRowsRoundTrip :
    (∀ i ∈ [Instr.reqAny 0x00, .reqAny 0x8F, .reqAny 0x99, .reqAny 0xFF, .reqSoc, .reqAlarm],
      i.isRequest = true ∧ i.wellFormed .standard = true) := by decide
theorem witness_ResponseRowsRoundTrip :
    (∀ i ∈ [Instr.rspSoc 0 0 0 0 0 0 0, .rspUnknown 0 0x8F 0 (.replicate 8 0) 0, .rspUnknown 0 0x99 0 (.replicate 8 0xFF) 0,
        .rspTemps 1 8 3 (.replicate 7 0xFF) 0xFF],
      i.isResponse = true ∧ i.wellFormed .standard = true) := by decide
theorem witness_ReceivedBytesDecode :
    (List.replicate 12 (0xA5 : Byte)).length < 13 ∧ ¬(List.replicate 13 (0xA5 : Byte)).length < 13 ∧
    (List.replicate 13 (0xA5 : Byte))[0]? = some 0xA5 ∧ (List.replicate 13 (0x5A : Byte))[0]? ≠ some 0xA5 := by decide
theorem witness_UnknownCodesAreTheOthers :
    (decodeResponse (block 0x8F (.replicate 9 0))).toOption.isSome ∧
    (decodeResponse (block 0x90 (.replicate 9 0))).toOption.isSome ∧
    (decodeResponse (block 0x98 (.replicate 9 0))).toOption.isSome := by decide
theorem witness_StepRunsTheNextOperation :
    State.reset.pending = [] ∧ (State.reset.issue .validate).pending = .validate :: [] := by decide
theorem witness_StepRunsTheDecodedRow :
    let s := (got 0 0 goodSoc).issue .decode
    s.pending = .decode :: [] ∧ s.Framed ∧ decodeResponse s.received = .ok (.rspSoc 0x01 0x08 525 525 29900 850 0xF1) ∧
    (State.reset.issue (.encode 0x90)).pending = .encode 0x90 :: [] := by decide
theorem witness_DecodeRunsTheDecodedRow :
    (one 0 0 0x94).Framed ∧
    decodeResponse (one 0 0 0x94).received = .ok (.rspStatus 0x01 0x08 (.replicate 8 0) 0) ∧ ¬State.reset.Framed := by
  decide
theorem witness_EncodeBuildsTheRequestFrame :
    State.reset.txBuf.wf 13 = true ∧ Instr.opEncode 0xFF ∈ [Instr.opEncode 0xFF, .reqAny 0xFF] := by decide
theorem witness_NamedRequestRowsBuildTheirFrames :
    (after (exec .reqSoc State.reset)).txBuf.wf 13 = true := by decide
theorem witness_LoadDeliversTheBytes :
    (one 0 0 0x90).rxBuf.wf (one 0 0 0x90).cfg.rxCap = true ∧ ([] : List Byte).length ≤ (one 0 0 0x90).cfg.rxCap ∧
    ∀ bs : List Byte, (bs.length = 208 → bs.length ≤ (one 0 0 0x90).cfg.rxCap) ∧
      (bs.length = 209 → (one 0 0 0x90).cfg.rxCap < bs.length) := by
  refine ⟨by decide, by decide, fun bs => ⟨fun h => ?_, fun h => ?_⟩⟩ <;> rw [h] <;> decide
theorem witness_ValidateChecksTheFrame :
    (sized 0 0 0x90 12).rxLen < 13 ∧ ¬(sized 0 0 0x90 13).rxLen < 13 ∧
    (got 0 0 (.replicate 13 0x5A)).rxBuf.read 0 ≠ 0xA5 ∧
    (got 0 0 (.replicate 13 0xA5)).rxBuf.read 0 = 0xA5 ∧
    (got 0 0 (.replicate 13 0xA5)).rxBuf.read 1 ≠ (got 0 0 (.replicate 13 0xA5)).expAddr ∧ (one 0 0 0x90).Framed := by
  decide
theorem witness_BalancingRowReadsCellsInOrder :
    16 < (sized 17 0 0x97 13).snap.cellCnt.toNat ∧
    ((sized 16 0 0x97 19).snap.cellCnt.toNat ≤ 16 ∧ max 13 (sized 16 0 0x97 19).rxLen < 4 + 16) ∧
    ((sized 16 0 0x97 20).snap.cellCnt.toNat ≤ 16 ∧ 4 + 16 ≤ max 13 (sized 16 0 0x97 20).rxLen) := by decide
theorem witness_OversizedCountsRaiseCapacityExceeded :
    16 < (one 17 5 0x95).snap.cellCnt.toNat ∧ 4 < (one 17 5 0x96).snap.sensCnt.toNat := by decide
theorem witness_CellVoltageRowReassembles :
    (one 16 0 0x95).snap.cellCnt.toNat ≤ 16 ∧ (one 16 0 0x95).status.seqmis = false := by decide
theorem witness_TemperatureRowReassembles :
    (one 0 4 0x96).snap.sensCnt.toNat ≤ 4 ∧ (one 0 4 0x96).status.seqmis = false := by decide
/-- For every DecodeOf… obligation of a named code. -/
theorem witness_DecodeOf :
    ∀ c ∈ ([0x90, 0x91, 0x92, 0x93, 0x94, 0x95, 0x96, 0x97, 0x98] : List Byte),
      (one 0 0 c).Framed ∧ (one 0 0 c).rxBuf.read 2 = c := by decide
theorem witness_DecodeOfUnknownCodes :
    ∀ c ∈ ([0x00, 0x8F, 0x99, 0xFF] : List Byte), (one 0 0 c).Framed ∧
      ¬(0x90 ≤ ((one 0 0 c).rxBuf.read 2).toNat ∧ ((one 0 0 c).rxBuf.read 2).toNat ≤ 0x98) := by decide
/-- The three outcomes of D97 at the ends of their ranges. -/
theorem witness_DecodeOfBalancing :
    ((sized 17 0 0x97 13).Framed ∧ 16 < (sized 17 0 0x97 13).snap.cellCnt.toNat) ∧
    ((sized 10 0 0x97 13).Framed ∧ (sized 10 0 0x97 13).rxLen < 4 + 10) ∧
    ((sized 9 0 0x97 13).Framed ∧ ¬(sized 9 0 0x97 13).rxLen < 4 + 9) := by decide
theorem witness_DecodeOfCellVoltages :
    ((one 17 0 0x95).Framed ∧ 16 < (one 17 0 0x95).snap.cellCnt.toNat) ∧
    ((one 16 0 0x95).Framed ∧ ¬16 < (one 16 0 0x95).snap.cellCnt.toNat) := by decide
theorem witness_DecodeOfTemperatures :
    ((one 0 5 0x96).Framed ∧ 4 < (one 0 5 0x96).snap.sensCnt.toNat) ∧
    ((one 0 4 0x96).Framed ∧ ¬4 < (one 0 4 0x96).snap.sensCnt.toNat) := by decide
/-- V-D36: subframes 1, 3, 4, 5 arrived. -/
theorem witness_LostSubframeDesynchronises :
    let s := got 12 1 (block 0x95 [1, 0x0B, 0xB9, 0x0B, 0xBA, 0x0B, 0xBB, 0, 0x93]
      ++ block 0x95 [3, 0x0B, 0xBF, 0x0B, 0xC0, 0x0B, 0xC1, 0, 0xA7]
      ++ block 0x95 [4, 0x0B, 0xC2, 0x0B, 0xC3, 0x0B, 0xC4, 0, 0xB1] ++ block 0x95 [5, 0, 0, 0, 0, 0, 0, 0, 0x48])
    s.Framed ∧ s.rxBuf.read 2 = 0x95 ∧ s.rxBuf.read 4 = 1 ∧ 26 ≤ s.rxLen ∧ 3 < s.snap.cellCnt.toNat ∧
    s.snap.cellCnt.toNat ≤ 16 ∧
    ∀ i ∈ List.range (min 16 (s.rxLen / 13)), 1 ≤ i → (s.rxBuf.read (13 * i + 4)).toNat = i + 2 := by decide
theorem witness_DecodeErrorsHaveTheirCauses :
    (sized 0 0 0x90 12).rxLen < 13 ∧ ((one 17 0 0x97).Framed ∧ 16 < (one 17 0 0x97).snap.cellCnt.toNat) ∧
    ((sized 10 0 0x97 13).Framed ∧ (sized 10 0 0x97 13).rxLen < 4 + (sized 10 0 0x97 13).snap.cellCnt.toNat) ∧
    ((one 1 0 0x95).Framed ∧ 0 < min 16 ((one 1 0 0x95).rxLen / 13) ∧
      3 * (usedSubframes (one 1 0 0x95).rxBuf.read 0).length < (one 1 0 0x95).snap.cellCnt.toNat ∧
      ((one 1 0 0x95).rxBuf.read 4).toNat ≠ 0 + 1) ∧
    ((one 0 4 0x96).Framed ∧ 0 < min 3 ((one 0 4 0x96).rxLen / 13) ∧
      7 * (usedSubframes (one 0 4 0x96).rxBuf.read 0).length < (one 0 4 0x96).snap.sensCnt.toNat ∧
      ((one 0 4 0x96).rxBuf.read 4).toNat ≠ 0 + 1) := by
  decide
/-- An error of each code, from either operation. -/
theorem witness_ErrorsArePrecise :
    (∃ t, exec .opValidate (sized 0 0 0x90 12) = .next t ∧ t.status.err = 1) ∧
    (∃ t, exec .opDecode (got 0 0 (.replicate 13 0x5A)) = .next t ∧ t.status.err = 2) ∧
    (∃ t, exec .opValidate (got 0 0 (.replicate 13 0xA5)) = .next t ∧ t.status.err = 3) ∧
    (∃ t, exec .opDecode (one 17 0 0x97) = .next t ∧ t.status.err = 4) ∧
    (∃ t, exec .opDecode (one 10 0 0x97) = .next t ∧ t.status.err = 5) :=
  ⟨⟨_, rfl, by decide⟩, ⟨_, rfl, by decide⟩, ⟨_, rfl, by decide⟩, ⟨_, rfl, by decide⟩, ⟨_, rfl, by decide⟩⟩
theorem witness_WriterTable :
    (∃ t, exec HostOp.validate.instr State.reset = .next t) ∧ (∃ t, exec (HostOp.load [1]).instr State.reset = .next t) ∧
    ∃ t, exec .opDecode (one 4 2 0x95) = .next t := ⟨⟨_, rfl⟩, ⟨_, rfl⟩, ⟨_, rfl⟩⟩
theorem witness_GroupPresenceIsKept :
    let s := (one 4 2 0x97).issue .decode
    (∃ t, step s = .next t) ∧ s.pending.head? ≠ some .reset ∧ s.snap.p94 = true := ⟨⟨_, rfl⟩, by decide, rfl⟩
/-- A stale byte at index 13 that differs, with a load and a decode to come. -/
theorem witness_StaleBytesAreNeverRead :
    let s := { one 4 2 0x95 with pending := [.decode, .load [0xA5]] }
    let t := { s with rxBuf := s.rxBuf.write 13 0xFF }
    s.BuffersOk ∧ t.BuffersOk ∧ SameReceived s t ∧ t ≠ s ∧ ∃ s', step s = .next s' := by
  refine ⟨by decide, by decide, ⟨rfl, fun a ha => ?_⟩, by decide, ⟨_, rfl⟩⟩
  have h : ∀ a : Fin 13, ((one 4 2 0x95).rxBuf.write 13 0xFF).read a = (one 4 2 0x95).rxBuf.read a := by decide
  exact h ⟨a, ha⟩
/-- Two buffers that differ in the header of block 1 (index 13). -/
theorem witness_LaterHeadersDoNotMatter :
    let s := sized 4 2 0x95 26
    let t := { s with rxBuf := s.rxBuf.write 13 0xFF }
    t = { s with rxBuf := t.rxBuf } ∧ t ≠ s ∧ s.rxBuf.read 2 ≠ 0x97 ∧
    ∀ a ∈ List.range 40, a < 13 ∨ (4 ≤ a % 13 ∧ a % 13 ≤ 11) → t.rxBuf.read a = s.rxBuf.read a :=
  ⟨rfl, by decide, by decide, by decide⟩
/-- Two buffers that differ in the length byte. -/
theorem witness_LengthAndLastByteDoNotMatter :
    let s := one 8 2 0x97
    let t := { s with rxBuf := s.rxBuf.write 3 0xFF }
    t = { s with rxBuf := t.rxBuf } ∧ t ≠ s ∧ s.snap.cellCnt.toNat ≤ 8 ∧
    ∀ a ∈ List.range 40, a ≠ 3 → a ≠ 12 → t.rxBuf.read a = s.rxBuf.read a := ⟨rfl, by decide, by decide, by decide⟩
theorem witness_DecodeIsIdempotent : ∃ t, exec .opDecode (one 4 2 0x95) = .next t := ⟨_, rfl⟩
/-- For every StepKeeps… obligation: a state that meets the invariant and steps. -/
theorem witness_StepKeeps :
    let s := (one 4 2 0x97).issue .decode
    s.BuffersOk ∧ s.StatusOk ∧ s.ReassemblyOk ∧ s.snap.AbsentZero ∧ s.snap.InRange ∧ ∃ t, step s = .next t := by
  refine ⟨by decide, by decide, by decide, by decide, ?_, ⟨_, rfl⟩⟩
  unfold Snapshot.InRange
  decide
theorem witness_MachineNeverStops :
    let s := { one 4 2 0x97 with pending := [.setAddr 0x40, .load [], .decode, .reset] }
    s.BuffersOk ∧ s.PendingOk := by
  refine ⟨by decide, fun op h => ?_⟩
  simp only [List.mem_cons, List.not_mem_nil, or_false] at h
  rcases h with rfl | rfl | rfl | rfl <;> rfl
theorem witness_LoopBack : State.reset.BuffersOk := by decide
theorem witness_AlarmStrings : (one 0 0 0x98).Framed ∧ (one 0 0 0x98).rxBuf.read 2 = 0x98 := by decide
theorem witness_PhysicalQuantities :
    (∀ c ∈ ([0x90, 0x91, 0x92, 0x93, 0x95, 0x96] : List Byte), (one 16 4 c).Framed ∧ (one 16 4 c).rxBuf.read 2 = c ∧
      (match exec .opDecode (one 16 4 c) with | .next _ => true | .fault _ => false | .refused _ => false) = true) ∧
    (one 16 4 0x95).snap.cellCnt.toNat ≤ 16 ∧ (one 16 4 0x96).snap.sensCnt.toNat ≤ 4 := by
  decide
theorem witness_FailedRoundTripKeepsTheSnapshot : ([] : List Byte).length ≤ State.reset.cfg.rxCap := by decide
theorem witness_ProbeAcceptsExactly :
    State.reset.BuffersOk ∧ State.reset.expAddr = 0x01 ∧ goodSoc.length ≤ State.reset.cfg.rxCap ∧
    (probe State.reset (some goodSoc)).2 = true ∧ (probe State.reset (some (goodSoc.take 12))).2 = false := by decide
/-- The answers of the five candidates of program P1 (95_test_vectors.md, V-S7). -/
def answers : List (Option (List Byte)) := [some [], some (requestFrame 0x90),
  some [0xA5, 0x01, 0x91, 0x08, 0x0D, 0x2F, 0x03, 0x0C, 0xE4, 0x07, 0, 0, 0x75],
  some [0x00, 0x01, 0x90, 0x08, 0x02, 0x0D, 0, 0, 0x75, 0x30, 0x03, 0x52, 0x47],
  some [0xA5, 0x01, 0x90, 0x08, 0x02, 0x0D, 0, 0, 0x75, 0x30, 0x03, 0x52, 0x47]]

/-- Both ends of a scan: the fifth candidate is found, and without it none is. -/
theorem witness_ScanClosesExactlyTheRejected :
    State.reset.BuffersOk ∧ State.reset.expAddr = 0x01 ∧
    (∀ read ∈ answers, ∀ bs ∈ read, bs.length ≤ State.reset.cfg.rxCap) ∧
    (probe (afterProbes (answers.take 4) State.reset) answers[4]).2 = true ∧
    (scanFrom 0 (answers.take 4) State.reset).found = none := by decide
theorem witness_DiscoveryOrTheOneSuppliedCandidate :
    (probe State.reset (some goodSoc)).2 = true ∧ (probe State.reset none).2 = false := by decide
/-- A cycle with a response, an empty one and seven failed reads. -/
def cycleReads : Vector (Option (List Byte)) 9 := #v[some goodSoc, none, none, some [], none, none, none, none, none]

theorem witness_PollCycleLoops :
    ∀ k : Fin 9, ∀ bs ∈ cycleReads[k], bs.length ≤ State.reset.cfg.rxCap := by decide
/-- For every cycle the same reads. -/
theorem witness_PollNeverEnds :
    let reads : Nat → Vector (Option (List Byte)) 9 := fun _ => cycleReads
    State.reset.BuffersOk ∧ ∀ c, ∀ k : Fin 9, ∀ bs ∈ (reads c)[k], bs.length ≤ State.reset.cfg.rxCap :=
  ⟨by decide, fun _ => witness_PollCycleLoops⟩

/-! ### The host -/

/-- V-S7, program P1: candidates 1 to 4 are closed once each, candidate 5 is kept, a sixth is not touched. -/
theorem test_discovery :
    let r := discover (.scan (answers ++ [none])) State.reset
    r.found = some 4 ∧ r.closed = [0, 1, 2, 3] ∧ r.state.hdr = ⟨0x01, 0x90, 0x08, 0x47⟩ ∧ r.state.rxLen = 13 := by
  decide
/-- A supplied candidate that does not answer: R192, R210. -/
theorem test_supplied : startHost (.only 7 none) State.reset = .discoveryExhausted (probe State.reset none).1 := rfl

/-- The phase, the completed cycles and the unit after some moves. -/
def polled (n : Nat) : Option Poller :=
  match pollFor (fun _ => cycleReads) n ⟨.init, 0, State.reset⟩ with
  | .next q => some q
  | .fault _ => none
  | .refused _ => none

/-- R193, R195: the phases of the first two requests, the second of which gets no response. -/
theorem test_poll_phases :
    (List.range 6).map (fun n => (polled n).map (·.phase)) =
      [some .init, some (.awaitResponse 0), some (.decode 0), some (.nextRequest 0), some (.awaitResponse 1),
        some (.nextRequest 1)] := by decide
/-- R193, R195: after a whole cycle the loop is in INIT again, and its one good response is in the snapshot. -/
theorem test_poll_cycle :
    (polled 22).map (fun q => (q.phase, q.cycles, q.bfu.snap.p90, q.bfu.snap.p93, q.bfu.txBuf.read 2))
      = some (.init, 1, true, false, 0x98) := by decide

end Sys2Proof.Tests
end

section
/-! SUPPORT. What a step can do to STATUS with RA_* and to the snapshot, said once; the invariants below are derived
from these. -/

namespace Sys2Proof.Machine

/-! ### The step -/

/-- What survives the taking of an issued operation off the list, and every operation, survives every step
(10_state.md R43). -/
theorem step_keeps {P : State → Prop} (hpop : ∀ (s : State) (rest : List HostOp), P s → P { s with pending := rest })
    (hop : ∀ {op : HostOp} {s t : State}, exec op.instr s = .next t → P s → P t) {s t : State}
    (h : step s = .next t) (hs : P s) : P t := by
  obtain ⟨-, rfl⟩ | ⟨op, rest, -, he⟩ := step_cases h
  · exact hs
  · exact hop he (hpop s rest hs)

/-- OP_DECODE writes F_*, STATUS, RA_* and the snapshot at most (10_state.md R46). -/
theorem execOpDecode_frame {s t : State} (h : execOpDecode s = .next t) :
    t = { s with hdr := t.hdr, status := t.status, ra := t.ra, snap := t.snap } := by
  obtain ⟨u, hu, hframe⟩ := execOpDecode_next s
  obtain rfl : u = t := by simpa [h] using hu.symm
  exact hframe

/-! ### STATUS and RA_* (10_state.md R25, R26) -/

/-- Every STATUS with RA_* that OP_RESET, OP_VALIDATE or OP_DECODE can leave (60_exceptions.md R205, R208);
`exec_op_reported` ties it to the operations. -/
inductive Reported : Status → Reassembly → Prop
  | cleared : Reported .clear .clear
  | frameTooShort : Reported ⟨1, false, false, false, false⟩ .clear
  | badSync (csumok : Bool) : Reported ⟨2, false, false, false, csumok⟩ .clear
  | unexpectedAddress (csumok : Bool) : Reported ⟨3, false, false, false, csumok⟩ .clear
  | capacityExceeded (csumok : Bool) : Reported ⟨4, true, false, false, csumok⟩ .clear
  | payloadOverrun (csumok : Bool) : Reported ⟨5, true, false, false, csumok⟩ .clear
  | accepted (unk csumok : Bool) : Reported ⟨0, true, unk, false, csumok⟩ .clear
  | reassembled (seqmis csumok : Bool) (ra : Reassembly) (hidx : ra.idx.toNat ≤ 16) (hrem : ra.rem.toNat ≤ 16)
      (hskip : ra.skip.toNat ≤ ra.idx.toNat) (hmis : seqmis = true ↔ 0 < ra.skip.toNat) :
      Reported ⟨0, true, false, seqmis, csumok⟩ ra

/-- The relations of R25, R205 and R208 hold of each outcome. -/
theorem Reported.statusOk {s : State} (h : Reported s.status s.ra) : s.StatusOk := by
  unfold State.StatusOk
  generalize s.status = st, s.ra = ra at h
  cases h <;> simp [Status.clear]

/-- RA_* is 0, but for a reassembly, which reports values in range. -/
theorem Reported.reassemblyOk {s : State} (h : Reported s.status s.ra) : s.ReassemblyOk := by
  unfold State.ReassemblyOk
  generalize s.status = st, s.ra = ra at h
  cases h with
  | reassembled seqmis csumok ra hidx hrem hskip hmis => exact ⟨hidx, hrem, hskip, hmis⟩
  | _ => simp [Status.clear, Reassembly.clear]

/-- A validation ends in a framing error or accepts (40_frame_codec.md R114, R115). -/
theorem State.validated_reported (s : State) : Reported s.validated.status s.validated.ra := by
  obtain ⟨-, h⟩ | ⟨-, -, h⟩ | ⟨-, -, -, h⟩ | ⟨-, -, -, h⟩ := s.validated_cases
  · simpa [h, ErrKind.code, Status.clear] using Reported.frameTooShort
  · simpa [h, ErrKind.code, Status.clear] using Reported.badSync s.csumOk
  · simpa [h, ErrKind.code, Status.clear] using Reported.unexpectedAddress s.csumOk
  · simpa [h, Status.clear] using Reported.accepted false s.csumOk

/-- A reassembly of at most 16 subframes and 16 items reports values in range (10_state.md R26). -/
theorem ReportsReassembly.reported {b : Nat → Byte} {per n count placed : Nat} {t : State}
    (h : ReportsReassembly b per n count placed t) (hn : n ≤ 16) (hcount : count ≤ 16)
    (hst : t.status = ⟨0, true, false, t.status.seqmis, t.status.csumok⟩) : Reported t.status t.ra := by
  obtain ⟨⟨hidx, -, -⟩, hrem, hskip, hmis⟩ := h
  rw [hst]
  exact .reassembled _ _ _ (by omega) (by omega) (by omega) (by rw [hmis]; omega)

/-- An OP_DECODE ends in one of the outcomes. -/
theorem Decoded.reported {s t : State} (h : Decoded s t) : Reported t.status t.ra := by
  cases h with
  | rejected => exact s.validated_reported
  | cellVTooMany h | tempsTooMany h | balTooMany h =>
    simpa [h.status, ErrKind.code] using Reported.capacityExceeded s.csumOk
  | balOverrun h => simpa [h.status, ErrKind.code] using Reported.payloadOverrun s.csumOk
  | unknown h => simpa [h.status] using Reported.accepted true s.csumOk
  | cellV h _ hn => exact (cellRun_reports h hn).2.reported (by omega) hn (by simp [h.status, Status.noteSkips])
  | temps h _ hn => exact (tempRun_reports h hn).2.reported (by omega) (by omega) (by simp [h.status, Status.noteSkips])
  | soc h | cellMinMax h | tempMinMax h | mos h | status h | bal h | alarm h =>
    simpa [h.status] using Reported.accepted false s.csumOk

/-- An operation leaves STATUS and RA_* alone or leaves one of the outcomes (10_state.md R46). -/
theorem exec_op_reported {op : HostOp} {s t : State} (h : exec op.instr s = .next t) :
    (t.status = s.status ∧ t.ra = s.ra) ∨ Reported t.status t.ra := by
  obtain ⟨-, rfl⟩ | ⟨_, -, rfl⟩ | ⟨_, -, rfl⟩ | ⟨_, -, -, rfl⟩ | ⟨-, rfl⟩ | ⟨-, hd⟩ := exec_op_cases h
  · exact .inr .cleared
  · exact .inl ⟨rfl, rfl⟩
  · exact .inl ⟨rfl, rfl⟩
  · exact .inl ⟨rfl, rfl⟩
  · exact .inr s.validated_reported
  · exact .inr (execOpDecode_cases hd).reported

/-! ### The snapshot -/

/-- Only OP_RESET and OP_DECODE write the snapshot (10_state.md R46). -/
theorem exec_op_snap {op : HostOp} {s t : State} (h : exec op.instr s = .next t) :
    t.snap = s.snap ∨ (op = .reset ∧ t.snap = .reset) ∨ Decoded s t := by
  obtain ⟨hop, rfl⟩ | ⟨_, -, rfl⟩ | ⟨_, -, rfl⟩ | ⟨_, -, -, rfl⟩ | ⟨-, rfl⟩ | ⟨-, hd⟩ := exec_op_cases h
  · exact .inr (.inl ⟨hop, rfl⟩)
  · exact .inl rfl
  · exact .inl rfl
  · exact .inl rfl
  · exact .inl s.validated_snap
  · exact .inr (.inr (execOpDecode_cases hd))

/-- What the reset snapshot meets and every OP_DECODE keeps, every step keeps. -/
theorem step_keeps_snap {P : Snapshot → Prop} (hreset : P .reset)
    (hdecode : ∀ {s t : State}, Decoded s t → P s.snap → P t.snap) {s t : State} (h : step s = .next t)
    (hs : P s.snap) : P t.snap :=
  step_keeps (P := fun u => P u.snap) (fun _ _ hu => hu)
    (fun he hu => by
      obtain hkept | ⟨-, hr⟩ | hd := exec_op_snap he
      · rwa [hkept]
      · rwa [hr]
      · exact hdecode hd hu) h hs

/-- What the placed items, the old slots and an absent slot meet, every slot meets after a reassembly
(42_reassembler.md R177). -/
theorem SlotsAfter.forall {w cap : Nat} {P : Slot w → Prop} {placed : List (BitVec w)} {count : Nat}
    {old new : Vector (Slot w) cap} (h : SlotsAfter placed count old new) (hplaced : ∀ x ∈ placed, P ⟨x, true⟩)
    (hold : ∀ k : Fin cap, P old[k]) (habsent : P ⟨0, false⟩) (k : Fin cap) : P new[k] := by
  rw [h k]
  split
  · next x hx => exact hplaced x (List.mem_of_getElem? hx)
  · split
    · exact hold k
    · exact habsent

/-- A placed item is an item of some subframe. -/
theorem placedItems_mem {α : Type} {b : Nat → Byte} {items : Nat → List α} {n count : Nat} {x : α}
    (h : x ∈ placedItems b items n count) : ∃ i, x ∈ items i := by
  obtain ⟨i, -, hi⟩ := List.mem_flatMap.mp (List.mem_of_mem_take h)
  exact ⟨i, hi⟩

/-- Every temperature item is the decoding of a byte (42_reassembler.md R176). -/
theorem temperatureItems_mem {b : Nat → Byte} {i : Nat} {x : BitVec 9} (h : x ∈ temperatureItems b i) :
    ∃ y, x = tempOf y := by
  obtain ⟨o, -, rfl⟩ := List.mem_map.mp h
  exact ⟨_, rfl⟩

theorem balSlots_get (v : List Byte) (n : Nat) (k : Fin 16) :
    (balSlots v n)[k] = if k.val < n then { val := pb v k.val, present := true } else .absent := by
  simp [balSlots]

/-- BALACT as D97 writes it is the OR of the slots that D97 writes (10_state.md R40). -/
theorem anyActive_iff (v : List Byte) {n : Nat} (hn : n ≤ 16) :
    anyActive v n = true ↔ ∃ k : Fin 16, (balSlots v n)[k].val ≠ 0 := by
  simp only [anyActive, List.any_eq_true, List.mem_range, decide_eq_true_eq, balSlots_get]
  constructor
  · rintro ⟨k, hk, hb⟩
    exact ⟨⟨k, by omega⟩, by rwa [if_pos hk]⟩
  · rintro ⟨k, hb⟩
    by_cases hk : k.val < n
    · exact ⟨k.val, hk, by rwa [if_pos hk] at hb⟩
    · simp [hk, Slot.absent] at hb

end Sys2Proof.Machine
end

section
/-! PROOFS. The invariants of 10_state.md: the reset state meets them and every step keeps them. -/

namespace Sys2Proof.Machine

/-! ### The buffers -/

theorem requestFrame_length (c : Byte) : (requestFrame c).length = blockLen := rfl

theorem exec_op_buffersOk {op : HostOp} {s t : State} (h : exec op.instr s = .next t) (hs : s.BuffersOk) :
    t.BuffersOk := by
  obtain ⟨hcfg, htx, hrx, hlen⟩ := hs
  obtain ⟨-, rfl⟩ | ⟨a, -, rfl⟩ | ⟨c, -, rfl⟩ | ⟨bs, -, hbs, rfl⟩ | ⟨-, rfl⟩ | ⟨-, hd⟩ := exec_op_cases h
  · exact ⟨hcfg, Memory.nil_wf _, Memory.nil_wf _, Nat.zero_le _⟩
  · exact ⟨hcfg, htx, hrx, hlen⟩
  · exact ⟨hcfg, Memory.store_wf _ htx (by simp [requestFrame_length]), hrx, hlen⟩
  · exact ⟨hcfg, htx, Memory.store_wf _ hrx (by omega), hbs⟩
  · rw [s.validated_frame]
    exact ⟨hcfg, htx, hrx, hlen⟩
  · rw [execOpDecode_frame hd]
    exact ⟨hcfg, htx, hrx, hlen⟩

/-- Settles O42: each operation stores inside a buffer, or leaves it alone, or empties it. -/
theorem stepKeepsTheBuffers : Obligations.StepKeepsTheBuffers := by
  intro s t hs h
  refine step_keeps (P := fun u => u.BuffersOk ∧ u.cfg = s.cfg) (fun _ _ hu => hu) (fun he hu => ?_) h ⟨hs, rfl⟩
  exact ⟨exec_op_buffersOk he hu.1, (exec_op_cfg he).trans hu.2⟩

/-! ### STATUS and RA_* -/

/-- Settles O43: STATUS stays as it was or is that of one of the outcomes. -/
theorem stepKeepsStatusLegal : Obligations.StepKeepsStatusLegal := by
  intro s t hs h
  refine step_keeps (P := State.StatusOk) (fun _ _ hu => hu) (fun he hu => ?_) h hs
  obtain ⟨hst, hra⟩ | ho := exec_op_reported he
  · simpa only [State.StatusOk, hst, hra] using hu
  · exact ho.statusOk

/-- Settles O44: RA_* and SEQMIS stay as they were or are those of one of the outcomes. -/
theorem stepKeepsReassemblyInRange : Obligations.StepKeepsReassemblyInRange := by
  intro s t hs h
  refine step_keeps (P := State.ReassemblyOk) (fun _ _ hu => hu) (fun he hu => ?_) h hs
  obtain ⟨hst, hra⟩ | ho := exec_op_reported he
  · simpa only [State.ReassemblyOk, hst, hra] using hu
  · exact ho.reassemblyOk

/-! ### Absent fields -/

theorem Snapshot.reset_absentZero : Snapshot.reset.AbsentZero := by decide

/-- A decoder sets the presence bit of what it writes, and marks a slot absent with data bits 0. -/
theorem Decoded.absentZero {s t : State} (h : Decoded s t) (hs : s.snap.AbsentZero) : t.snap.AbsentZero := by
  obtain ⟨h90, h91, h92, h93, h94, h97, h98, hcell, htemp, hbal⟩ := id hs
  cases h <;> simp only [State.onSnap_snap, State.raise_snap, State.setUnk_snap, State.reportReassembly_snap,
    State.validated_snap]
  case soc => exact ⟨nofun, h91, h92, h93, h94, h97, h98, hcell, htemp, hbal⟩
  case cellMinMax => exact ⟨h90, nofun, h92, h93, h94, h97, h98, hcell, htemp, hbal⟩
  case tempMinMax => exact ⟨h90, h91, nofun, h93, h94, h97, h98, hcell, htemp, hbal⟩
  case mos => exact ⟨h90, h91, h92, nofun, h94, h97, h98, hcell, htemp, hbal⟩
  case status => exact ⟨h90, h91, h92, h93, nofun, h97, h98, hcell, htemp, hbal⟩
  case cellV h _ hn =>
    have hslots := (cellRun_reports h hn).1.forall (P := fun x => x.present = false → x.val = 0)
      (fun _ _ => nofun) hcell (fun _ => rfl)
    exact ⟨h90, h91, h92, h93, h94, h97, h98, hslots, htemp, hbal⟩
  case temps h _ hn =>
    have hslots := (tempRun_reports h hn).1.forall (P := fun x => x.present = false → x.val = 0)
      (fun _ _ => nofun) htemp (fun _ => rfl)
    exact ⟨h90, h91, h92, h93, h94, h97, h98, hcell, hslots, hbal⟩
  case bal =>
    refine ⟨h90, h91, h92, h93, h94, nofun, h98, hcell, htemp, fun k hk => ?_⟩
    rw [balSlots_get] at hk ⊢
    split at hk
    · cases hk
    · next hge => rw [if_neg hge]; rfl
  case alarm => exact ⟨h90, h91, h92, h93, h94, h97, nofun, hcell, htemp, hbal⟩
  all_goals exact hs

/-- Settles O45: at reset every data bit is 0, and OP_DECODE alone writes the snapshot afterwards. -/
theorem stepKeepsAbsentZero : Obligations.StepKeepsAbsentZero :=
  fun _ _ hs h => step_keeps_snap Snapshot.reset_absentZero Decoded.absentZero h hs

/-! ### Ranges -/

theorem Snapshot.reset_inRange : Snapshot.reset.InRange := by
  unfold Snapshot.InRange
  decide

theorem currOf_range (raw : Half) : -30000 ≤ (currOf raw).toInt ∧ (currOf raw).toInt ≤ 35535 := by
  have := raw.isLt
  rw [currOf_toInt]
  omega

theorem tempOf_range (b : Byte) : -40 ≤ (tempOf b).toInt ∧ (tempOf b).toInt ≤ 215 := by
  have := b.isLt
  rw [tempOf_toInt]
  omega

/-- A decoder writes signed registers by the two offset decodings only, and BAL with BALACT together. -/
theorem Decoded.inRange {s t : State} (h : Decoded s t) (hs : s.snap.InRange) : t.snap.InRange := by
  obtain ⟨hcurr, hmax, hmin, htemp, hact⟩ := id hs
  cases h <;> simp only [State.onSnap_snap, State.raise_snap, State.setUnk_snap, State.reportReassembly_snap,
    State.validated_snap]
  case soc => exact ⟨currOf_range _, hmax, hmin, htemp, hact⟩
  case tempMinMax => exact ⟨hcurr, tempOf_range _, tempOf_range _, htemp, hact⟩
  case temps h _ hn =>
    have hslots := (tempRun_reports h hn).1.forall (P := fun x => -40 ≤ x.val.toInt ∧ x.val.toInt ≤ 215)
      (fun x hx => by
        obtain ⟨i, hi⟩ := placedItems_mem hx
        obtain ⟨y, rfl⟩ := temperatureItems_mem hi
        exact tempOf_range y) htemp (by decide)
    exact ⟨hcurr, hmax, hmin, hslots, hact⟩
  case bal hn _ => exact ⟨hcurr, hmax, hmin, htemp, anyActive_iff _ hn⟩
  all_goals exact hs

/-- Settles O46: the reset values are in range, and OP_DECODE alone writes the snapshot afterwards. -/
theorem stepKeepsRegisterRanges : Obligations.StepKeepsRegisterRanges :=
  fun _ _ hs h => step_keeps_snap Snapshot.reset_inRange Decoded.inRange h hs

/-! ### Reset -/

/-- Settles O41: the reset values of STATUS and RA_* are the outcome of an OP_RESET, and its snapshot is the one that
`step_keeps_snap` starts from. -/
theorem resetMeetsTheInvariants : Obligations.ResetMeetsTheInvariants :=
  ⟨by decide, nofun, Reported.cleared.statusOk, Reported.cleared.reassemblyOk, Snapshot.reset_absentZero,
    Snapshot.reset_inRange⟩

/-- Settles O10: OP_RESET writes the reset state as it stands, and the table is read off that state. -/
theorem resetGivesTheResetValues : Obligations.ResetGivesTheResetValues := by
  have hsnap : State.reset.snap = .reset := rfl
  refine ⟨fun s => ⟨_, rfl, rfl⟩, rfl, fun _ => ⟨rfl, rfl⟩, rfl, rfl, rfl, rfl, ?_⟩
  simp [hsnap, Snapshot.reset, Slot.absent]

end Sys2Proof.Machine
end

section
/-! PROOFS. Who writes what (10_state.md R27, R46), and what runs next (R43). -/

namespace Sys2Proof.Machine

@[simp] theorem State.validated_seqmis (s : State) : s.validated.status.seqmis = false := by
  obtain ⟨-, h⟩ | ⟨-, -, h⟩ | ⟨-, -, -, h⟩ | ⟨-, -, -, h⟩ := s.validated_cases <;> rw [h] <;> rfl

/-- Settles O35, operation by operation and then decoder by decoder: a decoder's own command code is the one that its
group of the table leaves out. -/
theorem writerTable : Obligations.WriterTable := by
  refine ⟨fun op s t h => ?_, fun s t h => ?_⟩
  · obtain ⟨rfl, rfl⟩ | ⟨a, rfl, rfl⟩ | ⟨c, rfl, rfl⟩ | ⟨bs, rfl, -, rfl⟩ | ⟨rfl, rfl⟩ | ⟨rfl, hd⟩ := exec_op_cases h
    · simp
    · simp
    · simp
    · simp
    · simp
    · rw [execOpDecode_frame hd]
      simp
  · cases execOpDecode_cases h <;> simp [Reassembly.clear, *]

/-- A decoder sets its group's presence bit or leaves it alone. -/
theorem Decoded.keeps_presence {s t : State} (h : Decoded s t) :
    (s.snap.p90 = true → t.snap.p90 = true) ∧ (s.snap.p91 = true → t.snap.p91 = true) ∧
    (s.snap.p92 = true → t.snap.p92 = true) ∧ (s.snap.p93 = true → t.snap.p93 = true) ∧
    (s.snap.p94 = true → t.snap.p94 = true) ∧ (s.snap.p97 = true → t.snap.p97 = true) ∧
    (s.snap.p98 = true → t.snap.p98 = true) := by
  cases h <;> simp

/-- Settles O36: of the two operations that write the snapshot, OP_DECODE clears no presence bit. -/
theorem groupPresenceIsKept : Obligations.GroupPresenceIsKept := by
  intro s t h hreset
  obtain ⟨-, rfl⟩ | ⟨op, rest, hp, he⟩ := step_cases h
  · simp
  · obtain hkept | ⟨rfl, -⟩ | hd := exec_op_snap he
    · simp [hkept]
    · simp [hp] at hreset
    · exact hd.keeps_presence

/-- Settles O6: the two cases of `step`. -/
theorem stepRunsTheNextOperation : Obligations.StepRunsTheNextOperation :=
  ⟨fun s hp => by simp [step, hp], fun s op rest hp => by simp [step, hp]⟩

end Sys2Proof.Machine
end

section
/-! PROOFS. What cannot matter (20_memory.md R65, R71): RXBUF past RXLEN, and an OP_DECODE that ran before. -/

namespace Sys2Proof.Machine

/-! ### Stale bytes -/

/-- The state that is related to `s` by its RXBUF alone. -/
theorem SameReceived.exists_rxBuf {s t : State} (h : SameReceived s t) :
    ∃ m, t = { s with rxBuf := m } ∧ ∀ a < s.rxLen, m.read a = s.rxBuf.read a :=
  ⟨t.rxBuf, h⟩

theorem SameReceived.received {s t : State} (h : SameReceived s t) : t.received = s.received := by
  obtain ⟨m, rfl, hm⟩ := h.exists_rxBuf
  exact State.received_congr rfl hm

/-- A decoder's view is its own block and the received response. -/
theorem SameReceived.respView {s t : State} (h : SameReceived s t) (block : List Byte) :
    t.respView block = s.respView block := by
  rw [State.respView, State.respView, h.received]

/-- CSUMOK of a received block 0 is computed from received bytes (40_frame_codec.md R117). -/
theorem SameReceived.csumOk {s t : State} (h : SameReceived s t) (hl : blockLen ≤ s.rxLen) : t.csumOk = s.csumOk := by
  have hread : ∀ a < 13, t.rxBuf.read a = s.rxBuf.read a := fun a ha => h.2 a (Nat.lt_of_lt_of_le ha hl)
  have hbody : (List.range 12).map t.rxBuf.read = (List.range 12).map s.rxBuf.read :=
    List.map_congr_left fun a ha => hread a (Nat.lt_succ_of_lt (List.mem_range.mp ha))
  rw [State.csumOk, State.csumOk, hbody, hread 12 (by decide)]

/-- Validation tests the length before its first read, and reads block 0 only (40_frame_codec.md R114). -/
theorem SameReceived.validated {s t : State} (h : SameReceived s t) : SameReceived s.validated t.validated := by
  have hcsum := h.csumOk
  obtain ⟨m, rfl, hm⟩ := h.exists_rxBuf
  refine ⟨?_, by simpa using hm⟩
  by_cases hl : s.rxLen < blockLen
  · simp only [State.validated, if_pos hl]
    rfl
  · have hle := Nat.le_of_not_lt hl
    have hread : ∀ a < 13, m.read a = s.rxBuf.read a := fun a ha => hm a (Nat.lt_of_lt_of_le ha hle)
    simp only [State.validated, if_neg hl, hcsum hle, hread 0 (by decide), hread 1 (by decide), State.latchHeader,
      State.setCsumOk_rxBuf, State.clearOutcome_rxBuf, hread 2 (by decide), hread 3 (by decide), hread 12 (by decide)]
    split
    · rfl
    · split <;> rfl

/-- A decoder reads RXBUF through its view only. -/
theorem SameReceived.runDecoder {i : Instr} {s t s' : State} (h : SameReceived s t)
    (hd : runDecoder i s = .next s') : runDecoder i t = .next { s' with rxBuf := t.rxBuf } := by
  have hview := h.respView
  obtain ⟨m, rfl, -⟩ := h.exists_rxBuf
  cases i with
  | rspCellV =>
    simp only [Machine.runDecoder, execRspCellV, hview] at hd ⊢
    split at hd
    · next hn => cases hd; exact if_pos hn
    · next hn => cases hd; exact if_neg hn
  | rspTemps =>
    simp only [Machine.runDecoder, execRspTemps, hview] at hd ⊢
    split at hd
    · next hn => cases hd; exact if_pos hn
    · next hn => cases hd; exact if_neg hn
  | rspBal =>
    simp only [Machine.runDecoder, execRspBal, hview] at hd ⊢
    split at hd
    · next hn => cases hd; exact if_pos hn
    · next hn =>
      split at hd
      · next hm => cases hd; exact (if_neg hn).trans (if_pos hm)
      · next hm => cases hd; exact (if_neg hn).trans (if_neg hm)
  | _ => cases hd <;> rfl

/-- OP_DECODE reads received bytes only. -/
theorem SameReceived.execOpDecode {s t s' : State} (h : SameReceived s t) (hd : execOpDecode s = .next s') :
    execOpDecode t = .next { s' with rxBuf := t.rxBuf } := by
  have hv := h.validated
  have hstatus : t.validated.status = s.validated.status := by rw [hv.1]
  simp only [Machine.execOpDecode, hstatus, hv.received] at hd ⊢
  split at hd
  · next herr =>
    cases hd
    rw [if_pos herr, hv.1, State.validated_rxBuf]
  · next herr => rw [if_neg herr, hv.runDecoder hd, State.validated_rxBuf]

/-- After a load both buffers hold the loaded bytes below RXLEN (40_frame_codec.md R113). -/
theorem SameReceived.loadRx {s t : State} (h : SameReceived s t) (hs : s.rxBuf.wf s.cfg.rxCap = true)
    (ht : t.rxBuf.wf t.cfg.rxCap = true) {bs : List Byte} (hbs : bs.length ≤ s.cfg.rxCap) :
    SameReceived (s.loadRx bs) (t.loadRx bs) := by
  obtain ⟨m, rfl, -⟩ := h.exists_rxBuf
  refine ⟨rfl, fun a ha => ?_⟩
  have ha : a < bs.length := ha
  rw [State.read_loadRx hs hbs, State.read_loadRx ht hbs, if_pos ha, if_pos ha]

/-- Every operation answers alike in related states and keeps them related. -/
theorem SameReceived.exec_op {op : HostOp} {s t s' : State} (h : SameReceived s t)
    (hs : s.rxBuf.wf s.cfg.rxCap = true) (ht : t.rxBuf.wf t.cfg.rxCap = true) (he : exec op.instr s = .next s') :
    ∃ t', exec op.instr t = .next t' ∧ SameReceived s' t' := by
  obtain ⟨m, rfl, hm⟩ := h.exists_rxBuf
  obtain ⟨rfl, rfl⟩ | ⟨a, rfl, rfl⟩ | ⟨c, rfl, rfl⟩ | ⟨bs, rfl, hbs, rfl⟩ | ⟨rfl, rfl⟩ | ⟨rfl, hd⟩ := exec_op_cases he
  · exact ⟨_, rfl, rfl, fun _ _ => rfl⟩
  · exact ⟨_, rfl, rfl, hm⟩
  · exact ⟨_, rfl, rfl, hm⟩
  · exact ⟨_, exec_load hbs, h.loadRx hs ht hbs⟩
  · exact ⟨_, rfl, h.validated⟩
  · refine ⟨_, h.execOpDecode hd, rfl, ?_⟩
    rw [execOpDecode_frame hd]
    exact hm

/-- Settles O37: related states have the same operation next, and every operation keeps the relation. -/
theorem staleBytesAreNeverRead : Obligations.StaleBytesAreNeverRead := by
  intro s t s' ⟨_, _, hs, _⟩ ⟨_, _, ht, _⟩ h hstep
  have hpending : t.pending = s.pending := by rw [h.1]
  obtain ⟨hnone, rfl⟩ | ⟨op, rest, hnext, he⟩ := step_cases hstep
  · exact ⟨t, by simp only [step, hpending, hnone], h⟩
  · have hpop : SameReceived { s with pending := rest } { t with pending := rest } := by
      obtain ⟨m, rfl, hm⟩ := h.exists_rxBuf
      exact ⟨rfl, hm⟩
    simp only [step, hpending, hnext]
    exact hpop.exec_op hs ht he

/-! ### OP_DECODE again -/

theorem ExaminedCount.unique {b : Nat → Byte} {per n count e f : Nat} (he : ExaminedCount b per n count e)
    (hf : ExaminedCount b per n count f) : e = f :=
  eq_of_forall_lt_iff fun i => by rw [he.lt_iff, hf.lt_iff]

/-- A reassembly into its own result places the same items over themselves (42_reassembler.md R177). -/
theorem SlotsAfter.again {w cap : Nat} {placed : List (BitVec w)} {count : Nat} {old new new' : Vector (Slot w) cap}
    (h : SlotsAfter placed count old new) (h' : SlotsAfter placed count new new') : new' = new := by
  refine Vector.ext fun k hk => ?_
  have hnew := h ⟨k, hk⟩
  have hnew' := h' ⟨k, hk⟩
  simp only [Fin.getElem_fin] at hnew hnew'
  rw [hnew']
  cases hp : placed[k]? with
  | some x => simp only [hnew, hp]
  | none =>
    simp only [hp] at hnew ⊢
    split
    · rfl
    · next hge => rw [hnew, if_neg hge]

/-- What the loop examines, places and skips does not depend on the old slots (42_reassembler.md R172, R173). -/
theorem reassemble_again {w cap : Nat} (v : List Byte) {items : Nat → List (BitVec w)} {per count : Nat} (maxSf : Nat)
    (dst : Vector (Slot w) cap) (hcap : count ≤ cap) (hper : ∀ i, (items i).length = per) :
    let p := reassemble v items maxSf count dst
    let q := reassemble v items maxSf count (markAbsent count p.dst)
    q.registers = p.registers ∧ q.skip = p.skip ∧ markAbsent count q.dst = markAbsent count p.dst := by
  intro p q
  obtain ⟨hidx, hrem, hskip, hslots⟩ := reassemble_spec v items per maxSf count dst hcap hper
  obtain ⟨hidx', hrem', hskip', hslots'⟩ :=
    reassemble_spec v items per maxSf count (markAbsent count p.dst) hcap hper
  have hi : q.idx = p.idx := hidx'.unique hidx
  have hr : q.rem = p.rem := hrem'.trans hrem.symm
  have hs : q.skip = p.skip := by
    calc q.skip = q.idx - (usedSubframes (byteAt v) q.idx).length := hskip'
      _ = p.skip := by rw [hi]; exact hskip.symm
  exact ⟨by rw [Progress.registers, hi, hr, hs]; rfl, hs, hslots.again hslots'⟩

/-- A decoder writes STATUS, RA_* and the snapshot at most (10_state.md R46). -/
theorem runDecoder_frame {i : Instr} (hi : i.isResponse = true) {s t : State} (h : runDecoder i s = .next t) :
    t = { s with status := t.status, ra := t.ra, snap := t.snap } := by
  obtain ⟨u, hu, hframe⟩ := runDecoder_next hi s
  obtain rfl : u = t := by simpa [h] using hu.symm
  exact hframe

/-- A decoder that runs again, from the STATUS and RA_* of its first run and the snapshot that it left, ends alike. -/
theorem runDecoder_again {i : Instr} {s t : State} (h : runDecoder i s = .next t) :
    runDecoder i { s with snap := t.snap } = .next t := by
  have hview : ∀ p block, State.respView { s with snap := p } block = s.respView block := fun _ _ => rfl
  cases i with
  | rspCellV =>
    simp only [runDecoder, execRspCellV, hview] at h ⊢
    split at h
    · next hn => cases h; exact if_pos hn
    · next hn =>
      cases h
      have hagain := fun v => reassemble_again v maxSubframesV s.snap.cellV (Nat.le_of_not_lt hn) (voltItems_length v)
      refine (if_neg hn).trans ?_
      simp only [State.onSnap, State.reportReassembly, hagain]
  | rspTemps =>
    simp only [runDecoder, execRspTemps, hview] at h ⊢
    split at h
    · next hn => cases h; exact if_pos hn
    · next hn =>
      cases h
      have hagain := fun v => reassemble_again v maxSubframesT s.snap.temp (Nat.le_of_not_lt hn) (tempItems_length v)
      refine (if_neg hn).trans ?_
      simp only [State.onSnap, State.reportReassembly, hagain]
  | rspBal =>
    simp only [runDecoder, execRspBal, hview] at h ⊢
    split at h
    · next hn => cases h; exact if_pos hn
    · next hn =>
      split at h
      · next hm => cases h; exact (if_neg hn).trans (if_pos hm)
      · next hm => cases h; exact (if_neg hn).trans (if_neg hm)
  | _ => cases h <;> rfl

/-- Validation reads nothing that an OP_DECODE writes, and writes the header that it wrote before. -/
theorem State.validated_again {s t : State}
    (h : t = { s.validated with status := t.status, ra := t.ra, snap := t.snap }) :
    t.validated = { s.validated with snap := t.snap } := by
  generalize t.status = st, t.ra = ra, t.snap = p at h
  subst h
  obtain ⟨hl, hv⟩ | ⟨hl, h0, hv⟩ | ⟨hl, h0, h1, hv⟩ | ⟨hl, h0, h1, hv⟩ := s.validated_cases <;> rw [hv]
  · exact if_pos hl
  · exact (if_neg (Nat.not_lt.mpr hl)).trans (if_pos h0)
  · exact (if_neg (Nat.not_lt.mpr hl)).trans ((if_neg (not_not_intro h0)).trans (if_pos h1))
  · exact (if_neg (Nat.not_lt.mpr hl)).trans ((if_neg (not_not_intro h0)).trans (if_neg (not_not_intro h1)))

/-- Settles O40: the second validation selects the decoder that ran, and that decoder writes what it wrote. -/
theorem decodeIsIdempotent : Obligations.DecodeIsIdempotent := by
  intro s t (h : execOpDecode s = .next t)
  change execOpDecode t = .next t
  by_cases hf : s.Framed
  · rw [execOpDecode_framed hf] at h
    have hv := State.validated_again (runDecoder_frame (responseRow_isResponse _) h)
    have hft : t.Framed := t.validated_err_zero.mp (by rw [hv]; exact s.validated_err_zero.mpr hf)
    have hreceived : t.received = s.received := by
      rw [← t.validated_received, hv]
      exact s.validated_received
    rw [execOpDecode_framed hft, hreceived, hv]
    exact runDecoder_again h
  · rw [execOpDecode_invalid hf] at h
    cases h
    have hft : ¬s.validated.Framed := by simpa [State.Framed] using hf
    rw [execOpDecode_invalid hft, State.validated_again rfl]

end Sys2Proof.Machine
end

section
/-! SUPPORT. What the request encoder and the receive decoder answer, said once: the request frame of a code and its
row, the fields of a response block, and one equation for each response row (30_encoding.md R80 to R98). -/

namespace Sys2Proof

/-! ### Request frames -/

@[simp] theorem byteAt_requestFrame_command (c : Byte) : byteAt (requestFrame c) 2 = c := rfl

/-- The template row stands for the codes that have no row of their own (30_encoding.md R98). -/
theorem requestRow_of_not_named {c : Byte} (h : namedCode c = false) : requestRow c = .reqAny c := by
  revert c; decide

/-- The frame of a code reads as the row of that code, before any response row (notes/assumptions/5.md). -/
theorem decode_requestFrame (c : Byte) : decode (requestFrame c) = .ok (requestRow c) := by
  simp [decode, decodeRequest]

/-- The row of a code encodes to the frame of that code. -/
theorem encode_requestRow (c : Byte) : encode (requestRow c) = some (requestFrame c) := by
  rcases Machine.command_cases c with rfl | rfl | rfl | rfl | rfl | rfl | rfl | rfl | rfl | h
  on_goal 10 => rw [requestRow_of_not_named h]; rfl
  all_goals rfl

/-- The well-formed request rows are the rows of the 256 codes. -/
theorem Instr.exists_requestRow {c : Config} {i : Instr} (h : i.isRequest = true) (hw : i.wellFormed c = true) :
    ∃ code, i = requestRow code := by
  cases i with
  | reqAny cmd => exact ⟨cmd, (requestRow_of_not_named (by simpa [Instr.wellFormed] using hw)).symm⟩
  | reqSoc => exact ⟨0x90, rfl⟩
  | reqCellMinMax => exact ⟨0x91, rfl⟩
  | reqTempMinMax => exact ⟨0x92, rfl⟩
  | reqMos => exact ⟨0x93, rfl⟩
  | reqStatus => exact ⟨0x94, rfl⟩
  | reqCellV => exact ⟨0x95, rfl⟩
  | reqTemps => exact ⟨0x96, rfl⟩
  | reqBal => exact ⟨0x97, rfl⟩
  | reqAlarm => exact ⟨0x98, rfl⟩
  | _ => cases h

namespace Machine

/-- Running the row of a code builds the frame of that code (notes/assumptions/14.md). -/
theorem exec_requestRow (c : Byte) (s : State) : exec (requestRow c) s = .next (s.storeTx (requestFrame c)) := by
  rcases command_cases c with rfl | rfl | rfl | rfl | rfl | rfl | rfl | rfl | rfl | h
  on_goal 10 => rw [requestRow_of_not_named h]; rfl
  all_goals rfl

/-- TXBUF holds exactly the frame that was built. -/
theorem State.map_read_storeTx {s : State} (h : s.txBuf.wf 13 = true) (c : Byte) :
    (List.range 13).map (s.storeTx (requestFrame c)).txBuf.read = requestFrame c := by
  calc (List.range 13).map (s.storeTx (requestFrame c)).txBuf.read
      = (List.range 13).map (byteAt (requestFrame c)) :=
        List.map_congr_left fun k hk => by rw [State.read_storeTx h, if_pos (List.mem_range.mp hk)]
    _ = requestFrame c := rfl

end Machine

/-! ### The fields of a response block -/

section Block

variable (addr cmd len b12 : Byte) (rest : List Byte)

theorem responseBlock_length {payload : List Byte} (h : payload.length = 8) :
    (responseBlock addr cmd len payload b12).length = 13 := by
  simp [responseBlock, h]

@[simp] theorem byteAt_responseBlock_addr (payload : List Byte) :
    byteAt (responseBlock addr cmd len payload b12 ++ rest) 1 = addr := rfl

@[simp] theorem byteAt_responseBlock_cmd (payload : List Byte) :
    byteAt (responseBlock addr cmd len payload b12 ++ rest) 2 = cmd := rfl

@[simp] theorem byteAt_responseBlock_len (payload : List Byte) :
    byteAt (responseBlock addr cmd len payload b12 ++ rest) 3 = len := rfl

@[simp] theorem byteAt_responseBlock_seq (seq : Byte) (items : List Byte) :
    byteAt (responseBlock addr cmd len (seq :: items) b12 ++ rest) 4 = seq := rfl

/-- Eight payload bytes that a vector holds are read back as that vector. -/
@[simp] theorem bytesFrom8_responseBlock (payload : Vector Byte 8) :
    bytesFrom 8 (responseBlock addr cmd len payload.toList b12 ++ rest) 4 = payload := by
  simpa [responseBlock] using bytesFrom_append [syncByte, addr, cmd, len] payload (b12 :: rest)

/-- The seven items after a sequence byte are read back as their vector (30_encoding.md R85). -/
@[simp] theorem bytesFrom7_responseBlock (seq : Byte) (items : Vector Byte 7) :
    bytesFrom 7 (responseBlock addr cmd len (seq :: items.toList) b12 ++ rest) 5 = items := by
  simpa [responseBlock] using bytesFrom_append [syncByte, addr, cmd, len, seq] items (b12 :: rest)

/-- Byte 12 is the last byte of a block with eight payload bytes (30_encoding.md R82). -/
@[simp] theorem byteAt_responseBlock_last {payload : List Byte} (h : payload.length = 8) :
    byteAt (responseBlock addr cmd len payload b12 ++ rest) 12 = b12 := by
  simp [byteAt, responseBlock, h]

end Block

/-! ### The response rows, one equation for each code (30_encoding.md R84 to R94) -/

section Rows

variable {b : List Byte}

theorem responseRow_soc (h : byteAt b 2 = 0x90) : responseRow b =
    .rspSoc (byteAt b 1) (byteAt b 3) (be16 (byteAt b 4) (byteAt b 5)) (be16 (byteAt b 6) (byteAt b 7))
      (be16 (byteAt b 8) (byteAt b 9)) (be16 (byteAt b 10) (byteAt b 11)) (byteAt b 12) := by
  simp [responseRow, h]

theorem responseRow_cellMinMax (h : byteAt b 2 = 0x91) : responseRow b =
    .rspCellMinMax (byteAt b 1) (byteAt b 3) (be16 (byteAt b 4) (byteAt b 5)) (byteAt b 6)
      (be16 (byteAt b 7) (byteAt b 8)) (byteAt b 9) (be16 (byteAt b 10) (byteAt b 11)) (byteAt b 12) := by
  simp [responseRow, h]

theorem responseRow_tempMinMax (h : byteAt b 2 = 0x92) : responseRow b =
    .rspTempMinMax (byteAt b 1) (byteAt b 3) (bytesFrom 8 b 4) (byteAt b 12) := by
  simp [responseRow, h]

theorem responseRow_mos (h : byteAt b 2 = 0x93) : responseRow b =
    .rspMos (byteAt b 1) (byteAt b 3) (byteAt b 4) (byteAt b 5) (byteAt b 6) (byteAt b 7)
      (be32 (byteAt b 8) (byteAt b 9) (byteAt b 10) (byteAt b 11)) (byteAt b 12) := by
  simp [responseRow, h]

theorem responseRow_status (h : byteAt b 2 = 0x94) : responseRow b =
    .rspStatus (byteAt b 1) (byteAt b 3) (bytesFrom 8 b 4) (byteAt b 12) := by
  simp [responseRow, h]

theorem responseRow_cellV (h : byteAt b 2 = 0x95) : responseRow b =
    .rspCellV (byteAt b 1) (byteAt b 3) (byteAt b 4) (be16 (byteAt b 5) (byteAt b 6)) (be16 (byteAt b 7) (byteAt b 8))
      (be16 (byteAt b 9) (byteAt b 10)) (byteAt b 11) (byteAt b 12) := by
  simp [responseRow, h]

theorem responseRow_temps (h : byteAt b 2 = 0x96) : responseRow b =
    .rspTemps (byteAt b 1) (byteAt b 3) (byteAt b 4) (bytesFrom 7 b 5) (byteAt b 12) := by
  simp [responseRow, h]

theorem responseRow_bal (h : byteAt b 2 = 0x97) : responseRow b =
    .rspBal (byteAt b 1) (byteAt b 3) (bytesFrom 8 b 4) (byteAt b 12) := by
  simp [responseRow, h]

theorem responseRow_alarm (h : byteAt b 2 = 0x98) : responseRow b =
    .rspAlarm (byteAt b 1) (byteAt b 3) (bytesFrom 8 b 4) (byteAt b 12) := by
  simp [responseRow, h]

/-- A code is unknown when it is none of the nine. -/
theorem namedCode_eq_false_iff (c : Byte) : namedCode c = false ↔
    ∀ x ∈ ([0x90, 0x91, 0x92, 0x93, 0x94, 0x95, 0x96, 0x97, 0x98] : List Byte), c ≠ x := by
  revert c; decide

theorem responseRow_unknown (h : namedCode (byteAt b 2) = false) : responseRow b =
    .rspUnknown (byteAt b 1) (byteAt b 2) (byteAt b 3) (bytesFrom 8 b 4) (byteAt b 12) := by
  simp [responseRow, (namedCode_eq_false_iff _).mp h]

end Rows

/-! ### The receive decoder -/

/-- What the receive decoder accepts, and what it then answers (60_exceptions.md R201, R202). -/
theorem decodeResponse_eq_ok_iff {bs : List Byte} {i : Instr} :
    decodeResponse bs = .ok i ↔ blockLen ≤ bs.length ∧ byteAt bs 0 = syncByte ∧ responseRow bs = i := by
  by_cases hl : bs.length < blockLen
  · simp [decodeResponse, hl, Nat.not_le.mpr hl]
  · by_cases h0 : byteAt bs 0 = syncByte <;> simp [decodeResponse, hl, h0, Nat.le_of_not_lt hl]

/-- A byte below the length is the byte that stands there. -/
theorem getElem?_eq_some_byteAt {bs : List Byte} {a : Nat} (h : a < bs.length) : bs[a]? = some (byteAt bs a) := by
  simp [byteAt, h]

end Sys2Proof
end

section
/-! PROOFS. The round trips of the request rows and of the response rows (30_encoding.md R80 to R98). -/

namespace Sys2Proof

/-- A well-formed response row is a block with eight payload bytes, and the block gives the row back, whatever
follows. -/
theorem Instr.exists_responseBlock {c : Config} {i : Instr} (h : i.isResponse = true) (hw : i.wellFormed c = true) :
    ∃ addr cmd len payload b12, payload.length = 8 ∧ encode i = some (responseBlock addr cmd len payload b12) ∧
      ∀ rest, responseRow (responseBlock addr cmd len payload b12 ++ rest) = i := by
  cases i with
  | rspSoc addr len volt unread curr soc b12 =>
    refine ⟨addr, 0x90, len, _, b12, rfl, rfl, fun rest => ?_⟩
    rw [responseRow_soc rfl]
    simp [byteAt, responseBlock, bytes16]
  | rspCellMinMax addr len hiCell hiIdx loCell loIdx unread b12 =>
    refine ⟨addr, 0x91, len, _, b12, rfl, rfl, fun rest => ?_⟩
    rw [responseRow_cellMinMax rfl]
    simp [byteAt, responseBlock, bytes16]
  | rspTempMinMax addr len payload b12 =>
    exact ⟨addr, 0x92, len, _, b12, by simp, rfl, fun rest => (responseRow_tempMinMax rfl).trans (by simp)⟩
  | rspMos addr len cdStat chgMos disMos unread remCap b12 =>
    refine ⟨addr, 0x93, len, _, b12, rfl, rfl, fun rest => ?_⟩
    rw [responseRow_mos rfl]
    simp [byteAt, responseBlock, bytes32]
  | rspStatus addr len payload b12 =>
    exact ⟨addr, 0x94, len, _, b12, by simp, rfl, fun rest => (responseRow_status rfl).trans (by simp)⟩
  | rspCellV addr len seq item0 item1 item2 unread b12 =>
    refine ⟨addr, 0x95, len, _, b12, rfl, rfl, fun rest => ?_⟩
    rw [responseRow_cellV rfl]
    simp [byteAt, responseBlock, bytes16]
  | rspTemps addr len seq items b12 =>
    refine ⟨addr, 0x96, len, _, b12, by simp, rfl, fun rest => ?_⟩
    rw [responseRow_temps rfl]
    simp
  | rspBal addr len cells b12 =>
    exact ⟨addr, 0x97, len, _, b12, by simp, rfl, fun rest => (responseRow_bal rfl).trans (by simp)⟩
  | rspAlarm addr len alarms b12 =>
    exact ⟨addr, 0x98, len, _, b12, by simp, rfl, fun rest => (responseRow_alarm rfl).trans (by simp)⟩
  | rspUnknown addr cmd len payload b12 =>
    have hcmd : namedCode cmd = false := by simpa [Instr.wellFormed] using hw
    exact ⟨addr, cmd, len, _, b12, by simp, rfl, fun rest => by simp [responseRow_unknown, hcmd]⟩
  | _ => cases h

/-- Settles O2: the row's block starts with the sync byte, and the receive decoder reads the row from it. -/
theorem responseRowsRoundTrip : Obligations.ResponseRowsRoundTrip := by
  intro c i rest h hw
  obtain ⟨addr, cmd, len, payload, b12, hp, hencode, hrow⟩ := i.exists_responseBlock h hw
  have hlen := responseBlock_length addr cmd len b12 hp
  refine ⟨_, hencode, hlen, rfl, decodeResponse_eq_ok_iff.mpr ⟨?_, rfl, hrow rest⟩⟩
  simp [hlen, blockLen]

/-- The fields that a row reads are well formed, whatever the block. -/
theorem responseRow_wellFormed (b : List Byte) (c : Config) : (responseRow b).wellFormed c = true := by
  rcases Machine.command_cases (byteAt b 2) with h | h | h | h | h | h | h | h | h | h
  · rw [responseRow_soc h]; rfl
  · rw [responseRow_cellMinMax h]; rfl
  · rw [responseRow_tempMinMax h]; rfl
  · rw [responseRow_mos h]; rfl
  · rw [responseRow_status h]; rfl
  · rw [responseRow_cellV h]; rfl
  · rw [responseRow_temps h]; rfl
  · rw [responseRow_bal h]; rfl
  · rw [responseRow_alarm h]; rfl
  · rw [responseRow_unknown h]; simp [Instr.wellFormed, h]

/-- The row that a block reads as encodes to that block: its fields are all the bytes but the first. -/
theorem encode_responseRow {b : List Byte} (hl : blockLen ≤ b.length) (h0 : byteAt b 0 = syncByte) :
    encode (responseRow b) = some (b.take blockLen) := by
  rw [take13 hl]
  rcases Machine.command_cases (byteAt b 2) with h | h | h | h | h | h | h | h | h | h
  · simp [responseRow_soc h, encode, responseBlock, h0, h]
  · simp [responseRow_cellMinMax h, encode, responseBlock, h0, h]
  · simp [responseRow_tempMinMax h, encode, responseBlock, bytesFrom8_toList, h0, h]
  · simp [responseRow_mos h, encode, responseBlock, h0, h]
  · simp [responseRow_status h, encode, responseBlock, bytesFrom8_toList, h0, h]
  · simp [responseRow_cellV h, encode, responseBlock, h0, h]
  · simp [responseRow_temps h, encode, responseBlock, bytesFrom7_toList, h0, h]
  · simp [responseRow_bal h, encode, responseBlock, bytesFrom8_toList, h0, h]
  · simp [responseRow_alarm h, encode, responseBlock, bytesFrom8_toList, h0, h]
  · simp [responseRow_unknown h, encode, responseBlock, bytesFrom8_toList, h0]

/-- Settles O3: the two tests of the receive decoder, and what it reads when both pass. -/
theorem receivedBytesDecode : Obligations.ReceivedBytesDecode := by
  intro bs
  split
  · next hl => exact if_pos hl
  · next hl =>
    have hle : blockLen ≤ bs.length := Nat.le_of_not_lt hl
    have hfirst : bs[0]? = some (byteAt bs 0) := getElem?_eq_some_byteAt (Nat.lt_of_lt_of_le (by decide) hle)
    split
    · next h0 =>
      have hsync : byteAt bs 0 ≠ syncByte := fun e => h0 (by rw [hfirst, e]; rfl)
      exact (if_neg hl).trans (if_pos hsync)
    · next h0 =>
      have hsync : byteAt bs 0 = syncByte := Option.some.inj (hfirst.symm.trans (not_not.mp h0))
      exact ⟨responseRow bs, decodeResponse_eq_ok_iff.mpr ⟨hle, hsync, rfl⟩, responseRow_isResponse bs,
        responseRow_wellFormed bs, encode_responseRow hle hsync⟩

/-- Settles O1: a well-formed request row is the row of some code, and that code's frame reads as the row. -/
theorem requestRowsRoundTrip : Obligations.RequestRowsRoundTrip := by
  intro c i h hw
  obtain ⟨code, rfl⟩ := i.exists_requestRow h hw
  exact ⟨requestFrame code, encode_requestRow code, Machine.requestFrame_length code, decode_requestFrame code⟩

/-- The fallback row holds exactly the blocks whose code is unknown (30_encoding.md R94). -/
theorem responseRow_eq_unknown_iff (b : List Byte) :
    (∃ addr cmd len payload b12, responseRow b = .rspUnknown addr cmd len payload b12) ↔
      namedCode (byteAt b 2) = false := by
  refine ⟨fun ⟨addr, cmd, len, payload, b12, hrow⟩ => ?_, fun h => ⟨_, _, _, _, _, responseRow_unknown h⟩⟩
  rcases Machine.command_cases (byteAt b 2) with h | h | h | h | h | h | h | h | h | h
  · simp [responseRow_soc h] at hrow
  · simp [responseRow_cellMinMax h] at hrow
  · simp [responseRow_tempMinMax h] at hrow
  · simp [responseRow_mos h] at hrow
  · simp [responseRow_status h] at hrow
  · simp [responseRow_cellV h] at hrow
  · simp [responseRow_temps h] at hrow
  · simp [responseRow_bal h] at hrow
  · simp [responseRow_alarm h] at hrow
  · exact h

/-- Settles O4: byte 2 of accepted bytes selects the fallback row exactly when it is none of the nine codes. -/
theorem unknownCodesAreTheOthers : Obligations.UnknownCodesAreTheOthers := by
  intro bs i h
  obtain ⟨hl, -, rfl⟩ := decodeResponse_eq_ok_iff.mp h
  have hcmd : bs[2]? = some (byteAt bs 2) := getElem?_eq_some_byteAt (Nat.lt_of_lt_of_le (by decide) hl)
  rw [responseRow_eq_unknown_iff, namedCode_eq_false_iff, hcmd]
  simp only [ne_eq, Option.some.injEq]

/-- Settles O14: both build the frame of the code. -/
theorem encodeRunsTheRequestRow : Obligations.EncodeRunsTheRequestRow :=
  fun c s => ⟨(Machine.exec_requestRow c s).symm, decode_requestFrame c⟩

/-- The nine named rows of R98 with their codes and checksums. -/
theorem named_requestRow_frames : ∀ r ∈ ([(.reqSoc, 0x90, 0x7D), (.reqCellMinMax, 0x91, 0x7E),
    (.reqTempMinMax, 0x92, 0x7F), (.reqMos, 0x93, 0x80), (.reqStatus, 0x94, 0x81), (.reqCellV, 0x95, 0x82),
    (.reqTemps, 0x96, 0x83), (.reqBal, 0x97, 0x84), (.reqAlarm, 0x98, 0x85)] : List (Instr × Byte × Byte)),
    r.1 = requestRow r.2.1 ∧
      requestFrame r.2.1 = [0xA5, 0x40, r.2.1, 0x08, 0, 0, 0, 0, 0, 0, 0, 0, r.2.2] := by
  decide

/-- Settles O13: a named row is the row of its code, which builds that code's frame in TXBUF. -/
theorem namedRequestRowsBuildTheirFrames : Obligations.NamedRequestRowsBuildTheirFrames := by
  intro s hs r hr
  obtain ⟨hrow, hframe⟩ := named_requestRow_frames r hr
  refine ⟨s.storeTx (requestFrame r.2.1), by rw [hrow, Machine.exec_requestRow], rfl, ?_, fun a ha => ?_⟩
  · rw [Machine.State.map_read_storeTx hs, hframe]
  · rw [Machine.State.read_storeTx hs, if_neg (Nat.not_lt.mpr ha)]

end Sys2Proof
end

section
/-! PROOFS. What cannot matter to an OP_DECODE (30_encoding.md R96): the header bytes and byte 12 of later blocks, and
the length byte and byte 12 of block 0. -/

namespace Sys2Proof.Machine

/-! ### States whose RXBUF differs -/

/-- Two states that differ in RXBUF only, and there neither in the bytes that validation tests and the dispatch reads
nor in those that the selected decoder reads (30_encoding.md R96). -/
structure SamePayload (s t : State) : Prop where
  frame : t = { s with rxBuf := t.rxBuf }
  head : ∀ a < 3, t.rxBuf.read a = s.rxBuf.read a
  payload : ∀ a, 4 ≤ a % 13 → a % 13 ≤ 11 → t.rxBuf.read a = s.rxBuf.read a
  cells : s.rxBuf.read 2 = 0x97 → ∀ k < s.snap.cellCnt.toNat, t.rxBuf.read (4 + k) = s.rxBuf.read (4 + k)

/-- The state with another RXBUF, F_* changed by `g` and CSUMOK by `c`: what is left of a difference in RXBUF after an
OP_DECODE (`SamePayload.execOpDecode_eq`). -/
def State.rebuffered (s : State) (m : Memory) (g : Header → Header) (c : Bool → Bool) : State :=
  { s with rxBuf := m, hdr := g s.hdr, status := { s.status with csumok := c s.status.csumok } }

section

variable {s t : State}

/-- A byte of the response is read from RXBUF or, past RXLEN, from nowhere. -/
theorem State.byteAt_received_congr (hl : t.rxLen = s.rxLen) {a : Nat} (h : t.rxBuf.read a = s.rxBuf.read a) :
    byteAt t.received a = byteAt s.received a := by
  by_cases ha : a < s.rxLen
  · rw [t.byteAt_received (hl ▸ ha), s.byteAt_received ha, h]
  · have hnone : ∀ u : State, u.rxLen ≤ a → byteAt u.received a = 0 := fun u hu => by
      simp [byteAt, State.received, hu]
    rw [hnone s (Nat.le_of_not_lt ha), hnone t (hl ▸ Nat.le_of_not_lt ha)]

namespace SamePayload

variable (h : SamePayload s t)
include h

theorem rxLen_eq : t.rxLen = s.rxLen := by rw [h.frame]
theorem expAddr_eq : t.expAddr = s.expAddr := by rw [h.frame]
theorem cfg_eq : t.cfg = s.cfg := by rw [h.frame]
theorem snap_eq : t.snap = s.snap := by rw [h.frame]

theorem framed_iff : t.Framed ↔ s.Framed := by
  simp [State.Framed, h.rxLen_eq, h.expAddr_eq, h.head]

/-- The payload bytes of block 0. -/
theorem read_payload {a : Nat} (hlo : 4 ≤ a) (hhi : a ≤ 11) : t.rxBuf.read a = s.rxBuf.read a :=
  h.payload a (by omega) (by omega)

/-- A payload byte of any block. -/
theorem byteAt_received_eq {a : Nat} (hlo : 4 ≤ a % 13) (hhi : a % 13 ≤ 11) :
    byteAt t.received a = byteAt s.received a :=
  State.byteAt_received_congr h.rxLen_eq (h.payload a hlo hhi)

/-- The reassembly of R172 reads no header byte and no byte 12. -/
theorem reassemble_eq {w cap : Nat} {items : List Byte → Nat → List (BitVec w)}
    (hitems : ∀ i, items t.received i = items s.received i) (maxSf count : Nat) (dst : Vector (Slot w) cap) :
    reassemble t.received (items t.received) maxSf count dst
      = reassemble s.received (items s.received) maxSf count dst := by
  rw [funext hitems]
  refine reassemble_congr ?_ (fun i => ?_) maxSf count dst
  · rw [State.received_length, State.received_length, h.rxLen_eq]
  · have hmod : (blockLen * i + payloadOff) % 13 = 4 := by simp only [blockLen, payloadOff]; omega
    exact h.byteAt_received_eq (Nat.le_of_eq hmod.symm) (by omega)

theorem cellRun_eq : t.cellRun = s.cellRun := by
  simp only [State.cellRun, h.snap_eq]
  refine h.reassemble_eq (fun i => ?_) _ _ _
  rw [voltItems_eq, voltItems_eq]
  exact voltageItems_congr fun o h1 h2 => h.byteAt_received_eq (by omega) (by omega)

theorem tempRun_eq : t.tempRun = s.tempRun := by
  simp only [State.tempRun, h.snap_eq]
  refine h.reassemble_eq (fun i => ?_) _ _ _
  rw [tempItems_eq, tempItems_eq]
  exact temperatureItems_congr fun o h1 h2 => h.byteAt_received_eq (by omega) (by omega)

/-- D97 reads the status bytes of the cells in the count only (41_field_decoders.md R146). -/
theorem pb_eq (hc : s.rxBuf.read 2 = 0x97) {k : Nat} (hk : k < s.snap.cellCnt.toNat) :
    pb t.received k = pb s.received k :=
  State.byteAt_received_congr h.rxLen_eq (h.cells hc k hk)

theorem balSlots_eq (hc : s.rxBuf.read 2 = 0x97) :
    balSlots t.received s.snap.cellCnt.toNat = balSlots s.received s.snap.cellCnt.toNat := by
  refine Vector.ext fun k hk => ?_
  simp only [balSlots, Vector.getElem_ofFn]
  split
  · next hlt => rw [h.pb_eq hc hlt]
  · rfl

theorem anyActive_eq (hc : s.rxBuf.read 2 = 0x97) :
    anyActive t.received s.snap.cellCnt.toNat = anyActive s.received s.snap.cellCnt.toNat := by
  refine Bool.eq_iff_iff.mpr ?_
  simp only [anyActive, List.any_eq_true, List.mem_range]
  exact exists_congr fun k => and_congr_right fun hk => by rw [h.pb_eq hc hk]

/-- Whatever differs after validation is all that differs after the decoder. -/
theorem execOpDecode_eq {s' : State} {g : Header → Header} {c : Bool → Bool}
    (hv : t.validated = s.validated.rebuffered t.rxBuf g c) (hd : execOpDecode s = .next s') :
    execOpDecode t = .next (s'.rebuffered t.rxBuf g c) := by
  have hcmd : t.rxBuf.read 2 = s.rxBuf.read 2 := h.head 2 (by decide)
  cases execOpDecode_cases hd with
  | rejected hf => rw [execOpDecode_invalid (h.framed_iff.not.mpr hf), hv]
  | soc hf hc =>
    rw [execOpDecode_soc (h.framed_iff.mpr hf) (hcmd.trans hc), hv]
    simp (disch := omega) only [h.read_payload]
    rfl
  | cellMinMax hf hc =>
    rw [execOpDecode_cellMinMax (h.framed_iff.mpr hf) (hcmd.trans hc), hv]
    simp (disch := omega) only [h.read_payload]
    rfl
  | tempMinMax hf hc =>
    rw [execOpDecode_tempMinMax (h.framed_iff.mpr hf) (hcmd.trans hc), hv, h.cfg_eq]
    simp (disch := omega) only [h.read_payload]
    rfl
  | mos hf hc =>
    rw [execOpDecode_mos (h.framed_iff.mpr hf) (hcmd.trans hc), hv]
    simp (disch := omega) only [h.read_payload]
    rfl
  | status hf hc =>
    rw [execOpDecode_status (h.framed_iff.mpr hf) (hcmd.trans hc), hv, h.cfg_eq]
    simp (disch := omega) only [h.read_payload]
    rfl
  | cellVTooMany hf hc hn =>
    rw [execOpDecode_cellV (h.framed_iff.mpr hf) (hcmd.trans hc), hv, h.snap_eq]
    exact if_pos hn
  | cellV hf hc hn =>
    rw [execOpDecode_cellV (h.framed_iff.mpr hf) (hcmd.trans hc), hv, h.snap_eq, h.cellRun_eq]
    exact if_neg (Nat.not_lt.mpr hn)
  | tempsTooMany hf hc hn =>
    rw [execOpDecode_temps (h.framed_iff.mpr hf) (hcmd.trans hc), hv, h.snap_eq]
    exact if_pos hn
  | temps hf hc hn =>
    rw [execOpDecode_temps (h.framed_iff.mpr hf) (hcmd.trans hc), hv, h.snap_eq, h.tempRun_eq]
    exact if_neg (Nat.not_lt.mpr hn)
  | balTooMany hf hc hn =>
    rw [execOpDecode_bal (h.framed_iff.mpr hf) (hcmd.trans hc), hv, h.snap_eq]
    exact if_pos hn
  | balOverrun hf hc hn hm =>
    rw [execOpDecode_bal (h.framed_iff.mpr hf) (hcmd.trans hc), hv, h.snap_eq, h.rxLen_eq]
    exact (if_neg (Nat.not_lt.mpr hn)).trans (if_pos hm)
  | bal hf hc hn hm =>
    rw [execOpDecode_bal (h.framed_iff.mpr hf) (hcmd.trans hc), hv, h.snap_eq, h.rxLen_eq,
      h.balSlots_eq hc, h.anyActive_eq hc]
    exact (if_neg (Nat.not_lt.mpr hn)).trans (if_neg (Nat.not_lt.mpr hm))
  | alarm hf hc =>
    rw [execOpDecode_alarm (h.framed_iff.mpr hf) (hcmd.trans hc), hv]
    simp (disch := omega) only [h.read_payload]
    rfl
  | unknown hf hc =>
    rw [execOpDecode_unknown (h.framed_iff.mpr hf) (by rw [hcmd, hc]), hv]
    rfl

end SamePayload

/-! ### Validation of a changed buffer -/

/-- Validation reads block 0 only (40_frame_codec.md R114, R115). -/
theorem State.validated_of_block0 (hframe : t = { s with rxBuf := t.rxBuf })
    (h : ∀ a < 13, t.rxBuf.read a = s.rxBuf.read a) : t.validated = s.validated.rebuffered t.rxBuf id id := by
  have hbody : (List.range 12).map t.rxBuf.read = (List.range 12).map s.rxBuf.read :=
    List.map_congr_left fun a ha => h a (Nat.lt_succ_of_lt (List.mem_range.mp ha))
  have hcsum : t.csumOk = s.csumOk := by rw [State.csumOk, State.csumOk, hbody, h 12 (by decide)]
  generalize t.rxBuf = m at hframe h
  subst hframe
  simp only [State.validated, hcsum, State.latchHeader, State.setCsumOk_rxBuf, State.clearOutcome_rxBuf,
    h 0 (by decide), h 1 (by decide), h 2 (by decide), h 3 (by decide), h 12 (by decide)]
  generalize s.csumOk = csumok -- a name, so that `rfl` computes no checksum
  split
  · rfl
  · split
    · rfl
    · split <;> rfl

/-- Of the bytes past the command code, validation copies two to F_LEN and F_B12 and computes CSUMOK from all
(40_frame_codec.md R115, R117). -/
theorem SamePayload.validated_eq (h : SamePayload s t) :
    t.validated = s.validated.rebuffered t.rxBuf
      (fun hdr => { hdr with len := t.validated.hdr.len, b12 := t.validated.hdr.b12 })
      (fun _ => t.validated.status.csumok) := by
  obtain ⟨hframe, hhead, -, -⟩ := h
  generalize t.rxBuf = m at hframe hhead
  subst hframe
  simp only [State.validated, State.latchHeader, State.setCsumOk_rxBuf, State.clearOutcome_rxBuf,
    hhead 0 (by decide), hhead 1 (by decide), hhead 2 (by decide)]
  generalize State.csumOk _ = csumok, s.csumOk = csumok'
  split
  · rfl
  · split
    · rfl
    · split <;> rfl

end

/-- Settles O38: all of block 0 agrees, so both validations are alike, and so are the decoders that run after them. -/
theorem laterHeadersDoNotMatter : Obligations.LaterHeadersDoNotMatter := by
  intro s t hframe h hc
  have hsame : SamePayload s t :=
    { frame := hframe
      head := fun a ha => h a (by omega)
      payload := fun a hlo hhi => h a (.inr ⟨hlo, hhi⟩)
      cells := fun hbal => absurd hbal hc }
  obtain ⟨s', hs', -⟩ := execOpDecode_next s
  exact ⟨s', hs', hsame.execOpDecode_eq (State.validated_of_block0 hframe fun a ha => h a (.inl ha)) hs'⟩

/-- Settles O39: bytes 3 and 12 are no payload, and no status byte of the first eight cells; what validation makes of
them is what differs at the end. -/
theorem lengthAndLastByteDoNotMatter : Obligations.LengthAndLastByteDoNotMatter := by
  intro s t hframe h hcells
  have hsame : SamePayload s t :=
    { frame := hframe
      head := fun a ha => h a (by omega) (by omega)
      payload := fun a hlo hhi => h a (by omega) (by omega)
      cells := fun hbal k hk => by
        have := hcells hbal
        exact h (4 + k) (by omega) (by omega) }
  obtain ⟨s', hs', -⟩ := execOpDecode_next s
  exact ⟨s', _, hs', hsame.execOpDecode_eq hsame.validated_eq hs', rfl⟩

end Sys2Proof.Machine
end

section
/-! SUPPORT. What the frame codec leaves, said once: the checksum of a request frame, STATUS after a validation, the
received response after a load, and what a step makes of the issued operations (40_frame_codec.md R110 to R120). -/

namespace Sys2Proof

/-! ### The checksum of a request frame (30_encoding.md R81) -/

@[simp] theorem checksum_toNat (bs : List Byte) : (checksum bs).toNat = (bs.map BitVec.toNat).sum % 256 := by
  simp [checksum]

/-- The three fixed header bytes add up to 0xED, and the payload of a request is zero (30_encoding.md R80). -/
theorem requestBody_checksum_toNat (c : Byte) : (checksum (requestBody c)).toNat = (0xED + c.toNat) % 256 := by
  have hsum : ((requestBody c).map BitVec.toNat).sum = 0xED + c.toNat := by
    simp [requestBody, syncByte, hostAddr, reqLen]
    omega
  rw [checksum_toNat, hsum]

theorem byteAt_requestFrame_last (c : Byte) : byteAt (requestFrame c) 12 = checksum (requestBody c) := rfl

theorem map_byteAt_requestFrame (c : Byte) : (List.range 12).map (byteAt (requestFrame c)) = requestBody c := rfl

theorem byteAt_requestFrame_payload (c : Byte) {k : Nat} (hlo : 4 ≤ k) (hhi : k ≤ 11) :
    byteAt (requestFrame c) k = 0x00 := by
  interval_cases k <;> rfl

/-! ### The parameters -/

/-- The parameter summary of 92_eei_decisions.md gives RXBUF room for sixteen blocks. -/
theorem Config.rxCap_of_ok {c : Config} (h : c.ok = true) : 208 ≤ c.rxCap := by
  simp only [Config.ok, Bool.and_eq_true, decide_eq_true_eq] at h
  obtain ⟨⟨⟨⟨hcap, -⟩, -⟩, -⟩, -⟩ := h
  exact hcap

namespace Machine

/-! ### Validation (40_frame_codec.md R114 to R117) -/

@[simp] theorem State.validated_unk (s : State) : s.validated.status.unk = false := by
  obtain ⟨-, h⟩ | ⟨-, -, h⟩ | ⟨-, -, -, h⟩ | ⟨-, -, -, h⟩ := s.validated_cases <;> rw [h] <;> rfl

/-- CSUMOK is computed in every outcome but FrameTooShort, which leaves it 0 (40_frame_codec.md R117). -/
theorem State.validated_csumok_iff (s : State) :
    s.validated.status.csumok = true ↔ blockLen ≤ s.rxLen ∧ s.csumOk = true := by
  obtain ⟨hl, h⟩ | ⟨hl, -, h⟩ | ⟨hl, -, -, h⟩ | ⟨hl, -, -, h⟩ := s.validated_cases
  · simp [h, Status.clear, Nat.not_le.mpr hl]
  · simp [h, hl]
  · simp [h, hl]
  · simp [h, hl]

/-- The third test fails: the sync byte is right and the address is not (40_frame_codec.md R114). -/
theorem State.validated_unexpectedAddress {s : State} (hl : blockLen ≤ s.rxLen) (h0 : s.rxBuf.read 0 = syncByte)
    (h1 : s.rxBuf.read 1 ≠ s.expAddr) :
    s.validated = (s.clearOutcome.setCsumOk s.csumOk).raise .unexpectedAddress := by
  simp [State.validated, Nat.not_lt.mpr hl, h0, h1]

/-! ### The receive buffer after a load (40_frame_codec.md R113) -/

theorem exec_opLoad_tooLong {s : State} {bs : List Byte} (h : s.cfg.rxCap < bs.length) :
    exec (.opLoad bs) s = .refused (.loadTooLong bs.length s.cfg.rxCap) :=
  if_pos h

section Load

variable {s : State} (hs : s.rxBuf.wf s.cfg.rxCap = true)
include hs

/-- A received byte is the loaded byte. -/
theorem State.read_loadRx_of_lt {bs : List Byte} (hbs : bs.length ≤ s.cfg.rxCap) {k : Nat} (hk : k < bs.length) :
    (s.loadRx bs).rxBuf.read k = byteAt bs k := by
  rw [State.read_loadRx hs hbs, if_pos hk]

/-- The received response is what was loaded. -/
theorem State.received_loadRx {bs : List Byte} (hbs : bs.length ≤ s.cfg.rxCap) : (s.loadRx bs).received = bs := by
  refine List.ext_getElem (State.received_length _) fun k _ hk => ?_
  calc (s.loadRx bs).received[k]
      = (s.loadRx bs).rxBuf.read k := by simp [State.received]
    _ = byteAt bs k := State.read_loadRx_of_lt hs hbs hk
    _ = bs[k] := List.getD_eq_getElem bs 0 hk

end Load

/-! ### OP_DECODE and the receive decoder (40_frame_codec.md R118, R119) -/

/-- Rightly framed bytes are what the receive decoder accepts, and it answers their row. -/
theorem State.Framed.decodeResponse {s : State} (h : s.Framed) :
    decodeResponse s.received = .ok (responseRow s.received) :=
  decodeResponse_eq_ok_iff.mpr ⟨h.received_length, (h.byteAt (by decide)).trans h.2.1, rfl⟩

/-- Over rightly framed bytes OP_DECODE is the meaning of their row, on the validated state. -/
theorem exec_opDecode_framed {s : State} (h : s.Framed) :
    exec .opDecode s = exec (responseRow s.received) s.validated :=
  (execOpDecode_framed h).trans (runDecoder_eq_exec (responseRow_isResponse _) _)

/-! ### A request frame that is received (40_frame_codec.md R120) -/

/-- The state after OP_SETADDR of `a` and OP_ENCODE of `c`, as R120 begins. -/
def State.requesting (s : State) (a c : Byte) : State := ({ s with expAddr := a } : State).storeTx (requestFrame c)

/-- OP_LOAD of TXBUF delivers the frame that OP_ENCODE built there. -/
theorem exec_opLoad_requesting {s : State} (htx : s.txBuf.wf 13 = true) (hcap : blockLen ≤ s.cfg.rxCap) (a c : Byte) :
    exec (.opLoad ((List.range 13).map (s.requesting a c).txBuf.read)) (s.requesting a c)
      = .next ((s.requesting a c).loadRx (requestFrame c)) := by
  rw [State.requesting, State.map_read_storeTx (s := { s with expAddr := a }) htx]
  exact exec_load hcap

section ReceivedRequest

variable {s : State} (hs : s.rxBuf.wf s.cfg.rxCap = true) (c : Byte) (hcap : (requestFrame c).length ≤ s.cfg.rxCap)
include hs hcap

theorem State.read_loadRx_requestFrame :
    ∀ k < 13, (s.loadRx (requestFrame c)).rxBuf.read k = byteAt (requestFrame c) k :=
  fun _ hk => State.read_loadRx_of_lt hs hcap hk

/-- A request frame meets the checksum test of a response: both use the one formula (40_frame_codec.md R117). -/
theorem State.csumOk_loadRx_requestFrame : (s.loadRx (requestFrame c)).csumOk = true := by
  have hread := State.read_loadRx_requestFrame hs c hcap
  have hbody : (List.range 12).map (s.loadRx (requestFrame c)).rxBuf.read = requestBody c := by
    rw [← map_byteAt_requestFrame]
    exact List.map_congr_left fun k hk => hread k (Nat.lt_succ_of_lt (List.mem_range.mp hk))
  rw [State.csumOk, hbody, hread 12 (by decide), byteAt_requestFrame_last]
  exact decide_eq_true rfl

theorem State.loadRx_requestFrame_framed (ha : s.expAddr = hostAddr) : (s.loadRx (requestFrame c)).Framed := by
  have hread := State.read_loadRx_requestFrame hs c hcap
  exact ⟨Nat.le_refl 13, hread 0 (by decide), (hread 1 (by decide)).trans ha.symm⟩

/-- A unit that expects HOSTADDR accepts a request frame and decodes it as a response. -/
theorem State.loadRx_requestFrame_accepted (ha : s.expAddr = hostAddr) :
    let t := s.loadRx (requestFrame c)
    t.validated.status = ⟨0, true, false, false, true⟩ ∧
    t.validated.hdr = ⟨hostAddr, c, reqLen, checksum (requestBody c)⟩ ∧
    exec .opDecode t = exec (responseRow (requestFrame c)) t.validated := by
  intro t
  have hread := State.read_loadRx_requestFrame hs c hcap
  have hframed : t.Framed := State.loadRx_requestFrame_framed hs c hcap ha
  refine ⟨?_, ?_, ?_⟩
  · rw [hframed.status, State.csumOk_loadRx_requestFrame hs c hcap]
  · rw [hframed.hdr, hread 1 (by decide), hread 2 (by decide), hread 3 (by decide), hread 12 (by decide)]
    rfl
  · rw [exec_opDecode_framed hframed, State.received_loadRx hs hcap]

/-- A unit that expects another address turns a request frame away. -/
theorem State.loadRx_requestFrame_rejected (ha : s.expAddr ≠ hostAddr) :
    (s.loadRx (requestFrame c)).validated
      = ((s.loadRx (requestFrame c)).clearOutcome.setCsumOk true).raise .unexpectedAddress := by
  have hlen : blockLen ≤ (s.loadRx (requestFrame c)).rxLen := Nat.le_refl 13
  have hsync : (s.loadRx (requestFrame c)).rxBuf.read 0 = syncByte :=
    State.read_loadRx_requestFrame hs c hcap _ (by decide)
  have haddr : (s.loadRx (requestFrame c)).rxBuf.read 1 = hostAddr :=
    State.read_loadRx_requestFrame hs c hcap _ (by decide)
  rw [State.validated_unexpectedAddress hlen hsync fun e => ha (e.symm.trans haddr),
    State.csumOk_loadRx_requestFrame hs c hcap]

end ReceivedRequest

/-! ### The issued operations -/

/-- The host may issue everything but an OP_LOAD of more than RXCAP bytes (40_frame_codec.md R113). -/
theorem HostOp.instr_wellFormed_iff (op : HostOp) (c : Config) :
    op.instr.wellFormed c = true ↔ ∀ bs, op = .load bs → bs.length ≤ c.rxCap := by
  cases op <;> simp [HostOp.instr, Instr.wellFormed]

/-- A step takes the first issued operation off the list, and none is ever put back (notes/assumptions/2.md). -/
theorem step_pending {s t : State} (h : step s = .next t) : t.pending = s.pending.tail := by
  obtain ⟨hp, rfl⟩ | ⟨op, rest, hp, he⟩ := step_cases h
  · rw [hp, List.tail_nil]
  · obtain ⟨-, hpending, -⟩ := writerTable.1 op _ t he
    rw [hpending, hp, List.tail_cons]

/-- A step goes on while the host issues only what it may. -/
theorem step_answers {s : State} (hs : s.PendingOk) : Answers (step s) := by
  cases hp : s.pending with
  | nil => exact ⟨s, stepRunsTheNextOperation.1 s hp⟩
  | cons op rest =>
    have hop : op.instr.wellFormed s.cfg = true := hs op (by simp [hp])
    rw [stepRunsTheNextOperation.2 s op rest hp]
    exact exec_op_next op _ ((op.instr_wellFormed_iff _).mp hop)

/-- What lets the machine step and survives the step lets it run for any number of steps. -/
theorem run_of_step {P : State → Prop} (hstep : ∀ s, P s → ∃ t, step s = .next t ∧ P t) (k : Nat) {s : State}
    (hs : P s) : ∃ t, Sys2Proof.core.run k s = .next t ∧ P t := by
  induction k generalizing s with
  | zero => exact ⟨s, rfl, hs⟩
  | succ k ih =>
    obtain ⟨u, hu, hPu⟩ := hstep s hs
    have hcore : Sys2Proof.core.step s = .next u := hu
    simp only [Host.Core.run, hcore]
    exact ih hPu

end Machine

end Sys2Proof
end

section
/-! PROOFS. The frame codec (40_frame_codec.md): what each operation leaves, what OP_DECODE and a step run, the
loop-back property, and that the machine goes on. -/

namespace Sys2Proof.Machine

/-- Settles O47: an issued operation that the host may issue answers, and the step keeps the buffers, the parameters and
the operations that still wait. -/
theorem machineNeverStops : Obligations.MachineNeverStops := by
  intro s hbuffers hpending k
  refine run_of_step (P := fun u => u.BuffersOk ∧ u.PendingOk) (fun u ⟨hb, hp⟩ => ?_) k ⟨hbuffers, hpending⟩
  obtain ⟨t, ht⟩ := step_answers hp
  obtain ⟨hb', hcfg⟩ := stepKeepsTheBuffers u t hb ht
  refine ⟨t, ht, hb', fun op hop => ?_⟩
  rw [step_pending ht] at hop
  rw [hcfg]
  exact hp op (List.mem_of_mem_tail hop)

/-! ### What OP_DECODE and a step run -/

/-- Settles O8: the receive decoder's tests are two of the three that validation makes. -/
theorem decodeRunsTheDecodedRow : Obligations.DecodeRunsTheDecodedRow := by
  refine ⟨fun s i h hi => ⟨s.validated, rfl, ?_⟩, fun s h => ⟨_, h.decodeResponse, responseRow_isResponse _⟩,
    fun s h => execOpDecode_invalid h⟩
  obtain ⟨-, -, rfl⟩ := decodeResponse_eq_ok_iff.mp hi
  exact exec_opDecode_framed h

/-- Settles O7: the step is its operation, and that is the decoded row (O8) or the request row (O14). -/
theorem stepRunsTheDecodedRow : Obligations.StepRunsTheDecodedRow := by
  refine ⟨fun s rest i hp h hi => ?_, fun s rest c hp => ?_⟩
  · rw [stepRunsTheNextOperation.2 s _ rest hp]
    exact decodeRunsTheDecodedRow.1 { s with pending := rest } i h hi
  · obtain ⟨hexec, hdecode⟩ := encodeRunsTheRequestRow c { s with pending := rest }
    exact ⟨hdecode, (stepRunsTheNextOperation.2 s _ rest hp).trans hexec⟩

/-! ### What each operation leaves -/

/-- Settles O9: the operations that the host may issue go on, and the others are the oversized loads. -/
theorem onlyOversizedLoadsAreRefused : Obligations.OnlyOversizedLoadsAreRefused := by
  intro op s
  by_cases h : ∀ bs, op = .load bs → bs.length ≤ s.cfg.rxCap
  · exact .inl ⟨exec_op_next op s h, h⟩
  · push Not at h
    obtain ⟨bs, rfl, hbs⟩ := h
    exact .inr ⟨bs, rfl, hbs, exec_opLoad_tooLong hbs⟩

/-- Settles O11: the meaning of OP_SETADDR is this update. -/
theorem setAddrWritesExpAddrOnly : Obligations.SetAddrWritesExpAddrOnly := fun _ _ => rfl

/-- Settles O12: TXBUF holds the frame of the code, whose bytes are those of R80 and R81. -/
theorem encodeBuildsTheRequestFrame : Obligations.EncodeBuildsTheRequestFrame := by
  intro c s hs i hi
  have hexec : exec i s = .next (s.storeTx (requestFrame c)) := by
    obtain rfl | rfl : i = .opEncode c ∨ i = .reqAny c := by simpa using hi
    · rfl
    · rfl
  have hread : ∀ k < 13, (s.storeTx (requestFrame c)).txBuf.read k = byteAt (requestFrame c) k :=
    fun k hk => by rw [State.read_storeTx hs, if_pos hk]
  have hlast : (s.storeTx (requestFrame c)).txBuf.read 12 = checksum (requestBody c) := hread 12 (by decide)
  refine ⟨_, hexec, rfl, hread 0 (by decide), hread 1 (by decide), hread 2 (by decide), hread 3 (by decide),
    fun k hlo hhi => ?_, ?_, ?_, fun a ha => ?_⟩
  · rw [hread k (by omega), byteAt_requestFrame_payload c hlo hhi]
  · have hbody : ((List.range 12).map fun k => ((s.storeTx (requestFrame c)).txBuf.read k).toNat)
        = (requestBody c).map BitVec.toNat := by
      rw [← map_byteAt_requestFrame, List.map_map]
      exact List.map_congr_left fun k hk =>
        congrArg BitVec.toNat (hread k (Nat.lt_succ_of_lt (List.mem_range.mp hk)))
    rw [hlast, checksum_toNat, hbody]
  · rw [hlast, requestBody_checksum_toNat]
  · rw [State.read_storeTx hs, if_neg (Nat.not_lt.mpr ha)]

/-- Settles O15: a load within RXCAP is a store from index 0, and a longer one is refused. -/
theorem loadDeliversTheBytes : Obligations.LoadDeliversTheBytes := by
  refine fun bs s hs => ⟨fun hbs => ⟨s.loadRx bs, exec_load hbs, rfl, fun k hk => ?_, fun a ha => ?_⟩,
    exec_opLoad_tooLong⟩
  · rw [State.read_loadRx_of_lt hs hbs hk]
    exact List.getD_eq_getElem bs 0 hk
  · rw [State.read_loadRx hs hbs, if_neg (Nat.not_lt.mpr ha)]

/-- Settles O16: the four outcomes of validation, one for each branch of the chain. -/
theorem validateChecksTheFrame : Obligations.ValidateChecksTheFrame := by
  intro s
  refine ⟨s.validated, rfl, s.validated_frame, s.validated_unk, s.validated_seqmis, ?_, ?_⟩
  · rw [s.validated_csumok_iff, s.csumOk_iff]
    rfl
  · obtain ⟨hl : s.rxLen < 13, h⟩ | ⟨hl : 13 ≤ s.rxLen, h0 : s.rxBuf.read 0 ≠ 0xA5, h⟩ |
      ⟨hl : 13 ≤ s.rxLen, h0 : s.rxBuf.read 0 = 0xA5, h1, h⟩ |
      ⟨hl : 13 ≤ s.rxLen, h0 : s.rxBuf.read 0 = 0xA5, h1, h⟩ := s.validated_cases
    · rw [h, if_pos hl]
      exact ⟨rfl, rfl, rfl⟩
    · rw [h, if_neg (Nat.not_lt.mpr hl), if_pos h0]
      exact ⟨rfl, rfl, rfl⟩
    · rw [h, if_neg (Nat.not_lt.mpr hl), if_neg (not_not.mpr h0), if_pos h1]
      exact ⟨rfl, rfl, rfl⟩
    · rw [h, if_neg (Nat.not_lt.mpr hl), if_neg (not_not.mpr h0), if_neg (not_not.mpr h1)]
      exact ⟨rfl, rfl, rfl⟩

/-! ### The loop-back property -/

/-- Settles O48: the frame of TXBUF, loaded, has the sync byte, the host's address and a right checksum, so EXPADDR
alone decides the outcome. -/
theorem loopBack : Obligations.LoopBack := by
  rintro s a c ⟨hcfg, htx, hrx, -⟩
  have hcap : blockLen ≤ s.cfg.rxCap := Nat.le_trans (by decide) (Config.rxCap_of_ok hcfg)
  refine ⟨_, s.requesting a c, _, _, checksum (requestBody c), rfl, rfl,
    exec_opLoad_requesting htx hcap a c, rfl, fun ha => ?_, fun ha => ?_⟩
  · obtain ⟨hstatus, hhdr, hdecode⟩ := State.loadRx_requestFrame_accepted (s := s.requesting a c) hrx c hcap ha
    exact ⟨hstatus, hhdr, requestBody_checksum_toNat c, hdecode⟩
  · rw [State.loadRx_requestFrame_rejected (s := s.requesting a c) hrx c hcap ha]
    exact ⟨rfl, rfl⟩

end Sys2Proof.Machine
end

section
/-! SUPPORT. What the field decoders leave, said once: a decoder's update of the validated snapshot, the bits of the io
byte, the balancing slots over a given source of bytes, and the slots of a reassembly as the host reads them
(41_field_decoders.md R140 to R150). -/

namespace Sys2Proof.Machine

/-- A decoder inside OP_DECODE updates the snapshot that stood before the operation (41_field_decoders.md R140). -/
theorem State.onSnap_validated (s : State) (f : Snapshot → Snapshot) :
    s.validated.onSnap f = { s.validated with snap := f s.snap } := by
  rw [State.onSnap, State.validated_snap]

/-- DI and DO together are the io byte (41_field_decoders.md R152). -/
theorem ioInputs_add_ioOutputs (io : Byte) : io.toNat = (ioInputs io).toNat + 16 * (ioOutputs io).toNat := by
  have := io.isLt
  simp only [ioInputs, ioOutputs, BitVec.extractLsb'_toNat, Nat.shiftRight_eq_div_pow]
  omega

/-! ### Balancing (41_field_decoders.md R146) -/

section Balancing

variable {v : List Byte} {n : Nat} {cell : Nat → Byte} (hcell : ∀ k < n, pb v k = cell k)
include hcell

/-- The BAL slots, by the bytes of the cells below the count. -/
theorem balSlots_get_eq (k : Fin 16) : (balSlots v n)[k] = if k.val < n then ⟨cell k, true⟩ else ⟨0, false⟩ := by
  rw [balSlots_get]
  split
  · next hk => rw [hcell k hk]
  · rfl

/-- BALACT, by the bytes of the cells below the count. -/
theorem anyActive_iff_exists : anyActive v n = true ↔ ∃ k, k < n ∧ cell k ≠ 0 := by
  simp only [anyActive, List.any_eq_true, List.mem_range, decide_eq_true_eq]
  exact exists_congr fun k => and_congr_right fun hk => by rw [hcell k hk]

end Balancing

/-- Inside OP_DECODE a cell's byte is RXBUF's. -/
theorem State.pb_received (s : State) {k : Nat} (hk : 4 + k < s.rxLen) : pb s.received k = s.rxBuf.read (4 + k) :=
  s.byteAt_received hk

/-- The view of a row that runs alone: the eight cells of its payload, byte 12 as cell 8, then RXBUF. -/
theorem State.pb_respView_bal (s : State) (addr len b12 : Byte) (cells : Vector Byte 8) {k : Nat}
    (hk : 4 + k < max 13 s.rxLen) :
    pb (s.respView (responseBlock addr 0x97 len cells.toList b12)) k
      = (cells.toList ++ [b12])[k]?.getD (s.rxBuf.read (4 + k)) := by
  have hblock : (responseBlock addr 0x97 len cells.toList b12)[4 + k]? = (cells.toList ++ [b12])[k]? := by
    rw [responseBlock, List.append_assoc, List.getElem?_append_right (by simp)]
    simp
  rw [pb, payloadOff, s.byteAt_respView (responseBlock_length addr 0x97 len b12 (by simp)) hk, hblock]

/-! ### Slots as the host reads them (10_state.md R27, 42_reassembler.md R177) -/

/-- Read through `f`, a slot is its placed item, or what it was below the count, or absent. -/
theorem SlotsAfter.value_map {w cap : Nat} {α : Type} {placed : List (BitVec w)} {count : Nat}
    {old new : Vector (Slot w) cap} (h : SlotsAfter placed count old new) (f : BitVec w → α) (k : Fin cap) :
    new[k].value.map f = (placed.map f)[k.val]?.or (if k.val < count then old[k].value.map f else none) := by
  have hk := h k
  rw [List.getElem?_map]
  cases hp : placed[k.val]? with
  | some x => rw [hk, hp]; rfl
  | none =>
    simp only [hp] at hk
    rw [hk]
    split
    · rfl
    · rfl

/-- The voltage items of a subframe in volts (41_field_decoders.md R150). -/
theorem voltageItems_map_volts (b : Nat → Byte) (i : Nat) :
    (voltageItems b i).map (fun x => (x.toNat : Rat) / 1000) =
      [5, 7, 9].map fun o => (256 * ((b (13 * i + o)).toNat : Rat) + ((b (13 * i + o + 1)).toNat : Rat)) / 1000 := by
  have hitem (o : Nat) : (BitVec.ofNat 16 (256 * (b (13 * i + o)).toNat + (b (13 * i + o + 1)).toNat)).toNat
      = 256 * (b (13 * i + o)).toNat + (b (13 * i + o + 1)).toNat := by
    have h0 := (b (13 * i + o)).isLt
    have h1 := (b (13 * i + o + 1)).isLt
    exact Nat.mod_eq_of_lt (by omega)
  rw [voltageItems, List.map_map]
  refine List.map_congr_left fun o _ => ?_
  rw [Function.comp_apply, hitem]
  push_cast
  rfl

/-- The temperature items of a subframe in degrees C (41_field_decoders.md R150). -/
theorem temperatureItems_map_toInt (b : Nat → Byte) (i : Nat) :
    (temperatureItems b i).map BitVec.toInt =
      [5, 6, 7, 8, 9, 10, 11].map fun o => ((b (13 * i + o)).toNat : Int) - 40 := by
  rw [temperatureItems, List.map_map]
  exact List.map_congr_left fun o _ => tempOf_toInt (b (13 * i + o))

/-! ### Alarm strings (41_field_decoders.md R148) -/

theorem renderAlarm_length (b : Byte) : (renderAlarm b).length = 8 := rfl

theorem renderAlarm_getElem? (b : Byte) {j : Nat} (hj : j < 8) :
    (renderAlarm b)[j]? = some (if b.getLsbD (7 - j) then alarmCh1 else alarmCh0) := by
  simp [renderAlarm, hj]

end Sys2Proof.Machine
end

section
/-! PROOFS. The field decoders (41_field_decoders.md): the response rows alone, OP_DECODE command by command, alarm
strings and physical quantities. -/

namespace Sys2Proof.Machine

/-! ### The response rows -/

/-- Settles O17: each row is its update of the snapshot, with the signed decodings and the io bits as R141 to R145 give
them. -/
theorem singleBlockRowsWriteTheirRegisters : Obligations.SingleBlockRowsWriteTheirRegisters :=
  ⟨fun _ _ _ _ _ curr _ _ => ⟨currOf curr, currOf_toInt curr, rfl⟩,
    fun _ _ _ _ _ _ _ _ _ => rfl,
    fun _ _ _ payload s =>
      ⟨tempOf payload[s.cfg.offTMax], tempOf payload[s.cfg.offTMin], tempOf_toInt _, tempOf_toInt _, rfl⟩,
    fun _ _ _ _ _ _ _ _ _ => rfl,
    fun _ _ _ payload _ =>
      ⟨ioInputs payload[4], ioOutputs payload[4], fun n => ⟨ioInputs_bit _ n, ioOutputs_bit _ n⟩, rfl⟩,
    fun _ _ _ _ _ => rfl,
    fun _ _ _ _ _ _ => rfl⟩

/-- Settles O18: the three branches of D97, over the row's own block and the received bytes after it. -/
theorem balancingRowReadsCellsInOrder : Obligations.BalancingRowReadsCellsInOrder := by
  intro addr len b12 cells s n cell
  have hlen : (s.respView (responseBlock addr 0x97 len cells.toList b12)).length = max 13 s.rxLen :=
    s.respView_length (responseBlock_length addr 0x97 len b12 (by simp))
  refine ⟨fun hn => if_pos hn, fun hn hm => ?_, fun hn hm => ?_⟩
  · rw [← hlen] at hm
    exact (if_neg (Nat.not_lt.mpr hn)).trans (if_pos hm)
  · have hcell : ∀ k < n, pb (s.respView (responseBlock addr 0x97 len cells.toList b12)) k = cell k :=
      fun k hk => s.pb_respView_bal addr len b12 cells (by omega)
    rw [← hlen] at hm
    exact ⟨_, _, (if_neg (Nat.not_lt.mpr hn)).trans (if_neg (Nat.not_lt.mpr hm)), balSlots_get_eq hcell,
      anyActive_iff_exists hcell⟩

/-! ### OP_DECODE, command by command -/

/-- Settles O22: the three registers of D90, as integers. -/
theorem decodeOfVoltageCurrentSoc : Obligations.DecodeOfVoltageCurrentSoc := by
  intro s hf hc
  refine ⟨_, _, _, _, _, rfl, execOpDecode_soc hf hc, s.onSnap_validated _, be16_toNat _ _, ?_, be16_toNat _ _⟩
  rw [currOf_toInt, be16_toNat]
  push_cast
  rfl

/-- Settles O23: the fields of D91, the two voltages as integers. -/
theorem decodeOfCellExtremes : Obligations.DecodeOfCellExtremes := fun s hf hc =>
  ⟨_, _, _, _, rfl, execOpDecode_cellMinMax hf hc, s.onSnap_validated _, be16_toNat _ _, be16_toNat _ _⟩

/-- Settles O24: the two bytes lie at the parameters, and the decoding of a byte does not wrap. -/
theorem decodeOfTemperatureExtremes : Obligations.DecodeOfTemperatureExtremes := fun s hf hc =>
  ⟨_, _, _, _, rfl, execOpDecode_tempMinMax hf hc, s.onSnap_validated _, tempOf_toInt _, tempOf_toInt _⟩

/-- Settles O25: the bytes of D93, and the capacity as the integer of its four bytes. -/
theorem decodeOfMosAndCapacity : Obligations.DecodeOfMosAndCapacity := by
  intro s hf hc
  refine ⟨_, _, _, rfl, execOpDecode_mos hf hc, s.onSnap_validated _, ?_⟩
  rw [be32_toNat]
  omega

/-- Settles O26: the bytes of D94, and the bits of the io byte, none of which is lost. -/
theorem decodeOfStatusInformation : Obligations.DecodeOfStatusInformation := fun s hf hc =>
  ⟨_, _, _, _, rfl, execOpDecode_status hf hc, s.onSnap_validated _,
    fun n => ⟨ioInputs_bit _ n, ioOutputs_bit _ n⟩, ioInputs_add_ioOutputs _⟩

/-- Settles O27: the three branches of D97, over the received response. -/
theorem decodeOfBalancing : Obligations.DecodeOfBalancing := by
  intro s hf hc n
  by_cases hn : 16 < n
  · refine ⟨_, _, rfl, (execOpDecode_bal hf hc).trans (if_pos hn), ?_⟩
    rw [if_pos hn]
    rfl
  have hdecode := (execOpDecode_bal hf hc).trans (if_neg hn)
  by_cases hm : s.rxLen < 4 + n
  · refine ⟨_, _, rfl, hdecode.trans (if_pos hm), ?_⟩
    rw [if_neg hn, if_pos hm]
    rfl
  · have hcell : ∀ k < n, pb s.received k = s.rxBuf.read (4 + k) := fun k hk => s.pb_received (by omega)
    refine ⟨_, _, rfl, hdecode.trans (if_neg hm), ?_⟩
    rw [if_neg hn, if_neg hm]
    exact ⟨_, _, s.onSnap_validated _, balSlots_get_eq hcell, anyActive_iff_exists hcell⟩

/-- Settles O28: the alarm bytes of D98, in order. -/
theorem decodeOfAlarms : Obligations.DecodeOfAlarms := fun s hf hc =>
  ⟨_, _, _, rfl, execOpDecode_alarm hf hc, s.onSnap_validated _, fun k => Vector.getElem_ofFn k.isLt⟩

/-- Settles O29: the validation that succeeded reports no error and latches the code. -/
theorem decodeOfUnknownCodes : Obligations.DecodeOfUnknownCodes := by
  intro s hf hc
  refine ⟨_, _, rfl, execOpDecode_unknown hf (decide_eq_false hc), rfl, ?_, ?_, ?_, s.validated_snap⟩
  · rw [State.setUnk_status, hf.status]
  · rw [State.setUnk_status, hf.status]
  · rw [State.setUnk_hdr, hf.hdr]

/-! ### What the host reads out -/

/-- Settles O49: a string's characters, and the strings of the eight bytes that D98 stores. -/
theorem alarmStrings : Obligations.AlarmStrings := by
  refine ⟨fun b => ⟨renderAlarm_length b, fun j hj => renderAlarm_getElem? b hj⟩, fun s hf hc => ?_⟩
  have hbytes : (Vector.ofFn fun k : Fin 8 => s.rxBuf.read (4 + k.val)).toList
      = (List.range 8).map fun k => s.rxBuf.read (4 + k) := rfl
  refine ⟨_, _, execOpDecode_alarm hf hc, rfl, ?_⟩
  simp only [State.onSnap_snap]
  rw [hbytes, List.map_map]
  rfl

/-- Settles O50: each register as O22 to O25 give it, over its unit, and each slot as its reassembly leaves it. -/
theorem physicalQuantities : Obligations.PhysicalQuantities := by
  intro s t hf ht u16
  refine ⟨fun hc => ?_, fun hc => ?_, fun hc => ?_, fun hc => ?_, fun hc hn k => ?_, fun hc hn k => ?_⟩
  · obtain ⟨_, _, volt, curr, soc, -, hdecode, hsnap, hvolt, hcurr, hsoc⟩ := decodeOfVoltageCurrentSoc s hf hc
    cases hdecode.symm.trans ht
    simp [Snapshot.volts, Snapshot.amperes, Snapshot.percent, hsnap, hvolt, hcurr, hsoc, u16]
  · obtain ⟨_, _, hi, lo, -, hdecode, hsnap, hhi, hlo⟩ := decodeOfCellExtremes s hf hc
    cases hdecode.symm.trans ht
    simp [Snapshot.highestVolts, Snapshot.lowestVolts, hsnap, hhi, hlo, u16]
  · obtain ⟨_, _, hi, lo, -, hdecode, hsnap, hhi, hlo⟩ := decodeOfTemperatureExtremes s hf hc
    cases hdecode.symm.trans ht
    simp [Snapshot.maxCelsius, Snapshot.minCelsius, hsnap, hhi, hlo]
  · obtain ⟨_, _, cap, -, hdecode, hsnap, hcap⟩ := decodeOfMosAndCapacity s hf hc
    cases hdecode.symm.trans ht
    simp [Snapshot.milliAmpHours, hsnap, hcap]
  · cases ((execOpDecode_cellV hf hc).trans (if_neg (Nat.not_lt.mpr hn))).symm.trans ht
    have hslot := (cellRun_reports hf hn).1.value_map (fun x => (x.toNat : Rat) / 1000) k
    simp only [← placedItems_map, voltageItems_map_volts] at hslot
    exact hslot
  · cases ((execOpDecode_temps hf hc).trans (if_neg (Nat.not_lt.mpr hn))).symm.trans ht
    have hslot := (tempRun_reports hf hn).1.value_map BitVec.toInt k
    simp only [← placedItems_map, temperatureItems_map_toInt] at hslot
    exact hslot

end Sys2Proof.Machine
end

section
/-! SUPPORT. What a reassembly leaves, said once: the whole next state inside OP_DECODE, a run over a row's own block
and the received bytes after it, and the subframes that a lost one leaves in use (42_reassembler.md R172 to R181). -/

namespace Sys2Proof.Machine

/-- A reassembly inside OP_DECODE updates the snapshot that stood before the operation (41_field_decoders.md R140). -/
theorem State.reportReassembly_onSnap_validated {w cap : Nat} (s : State) (p : Progress w cap)
    (f : Snapshot → Snapshot) :
    (s.validated.reportReassembly p).onSnap f =
      { s.validated with
        ra := p.registers, status := s.validated.status.noteSkips p.skip, snap := f s.snap } := by
  rw [State.onSnap, State.reportReassembly_snap, State.validated_snap]
  rfl

/-- A row that runs alone reassembles its own block and the received bytes after it (R172 to R177): the slots, and what
RA_* and SEQMIS report where SEQMIS was 0. -/
theorem State.reassemble_respView_reports {w cap : Nat} (itemsOf : List Byte → Nat → List (BitVec w))
    {decl : (Nat → Byte) → Nat → List (BitVec w)} (heq : ∀ v i, itemsOf v i = decl (byteAt v) i)
    (hlocal : ∀ {b c : Nat → Byte} {i : Nat}, (∀ o, 5 ≤ o → o ≤ 11 → b (13 * i + o) = c (13 * i + o)) →
      decl b i = decl c i)
    {per maxSf count : Nat} (hper : ∀ v i, (itemsOf v i).length = per) (hmax : maxSf ≤ 16) (hcount : count ≤ 16)
    (hcap : count ≤ cap) (dst : Vector (Slot w) cap) (s : State) {block : List Byte} (hblock : block.length = 13) :
    let b (a : Nat) : Byte := block[a]?.getD (s.rxBuf.read a)
    let n := min maxSf (max 13 s.rxLen / 13)
    let placed := placedItems b (decl b) n count
    let p := reassemble (s.respView block) (itemsOf (s.respView block)) maxSf count dst
    SlotsAfter placed count dst (markAbsent count p.dst) ∧
    (s.status.seqmis = false → ∀ f : Snapshot → Snapshot,
      ReportsReassembly b per n count placed.length ((s.reportReassembly p).onSnap f)) := by
  intro b n placed p
  have hlen := s.respView_length hblock
  have hview : ∀ a, a < (s.respView block).length → byteAt (s.respView block) a = b a := fun a ha =>
    s.byteAt_respView hblock (hlen ▸ ha)
  obtain ⟨hslots, hreports⟩ := reassemble_reports itemsOf decl heq per maxSf count hper hmax hcount hcap dst
    (s.respView block) b hview (fun m hm i hi => hlocal fun o _ _ => hview _ (by omega)) s
  rw [hlen] at hslots hreports
  exact ⟨hslots, fun hs _ => hreports hs _ rfl rfl⟩

/-- When every subframe after subframe 0 carries a number too high by one, only subframe 0 is in use (R181). -/
theorem usedSubframes_of_lost {b : Nat → Byte} {n : Nat} (hfirst : b 4 = 1)
    (hlost : ∀ i, 1 ≤ i → i < n → (b (13 * i + 4)).toNat = i + 2) (hn : 1 ≤ n) : usedSubframes b n = [0] := by
  induction n, hn using Nat.le_induction with
  | base => simp [usedSubframes, hfirst]
  | succ n hn ih =>
    have hskip : ¬(b (13 * n + 4)).toNat = n + 1 := by rw [hlost n hn n.lt_succ_self]; omega
    rw [usedSubframes_succ, ih fun i hi hin => hlost i hi (by omega), if_neg hskip, List.append_nil]

/-- A run whose used subframes never hold enough items examines every whole subframe (R173). -/
theorem ExaminedCount.eq_of_lt {b : Nat → Byte} {per n count e : Nat} (h : ExaminedCount b per n count e)
    (hlt : per * (usedSubframes b n).length < count) : e = n := by
  obtain ⟨hle, -, hend⟩ := h
  rcases hend with hend | hend
  · exact hend
  · obtain ⟨rest, hr⟩ := usedSubframes_append b e n hle
    have := Nat.mul_le_mul_left per (show (usedSubframes b e).length ≤ (usedSubframes b n).length by simp [hr])
    omega

end Sys2Proof.Machine
end

section
/-! PROOFS. The reassembler (42_reassembler.md): the two rows alone, OP_DECODE of the two commands, one lost subframe,
and the counts above capacity. -/

namespace Sys2Proof.Machine

/-! ### The two rows alone -/

/-- Settles O20: within capacity the row runs the voltage column of R170 over its block and RXBUF's later bytes. -/
theorem cellVoltageRowReassembles : Obligations.CellVoltageRowReassembles := by
  intro addr len seq unread b12 i0 i1 i2 s hcount block b n count placed
  obtain ⟨hslots, hreports⟩ := s.reassemble_respView_reports voltItems voltItems_eq
    (fun h => voltageItems_congr fun o hlo hhi => h o hlo (by omega)) voltItems_length (maxSf := maxSubframesV)
    (by decide) hcount hcount s.snap.cellV (block := block) rfl
  exact ⟨_, _, if_neg (Nat.not_lt.mpr hcount), rfl, hslots, fun hs => hreports hs _⟩

/-- Settles O21: within capacity the row runs the temperature column of R170 over its block and RXBUF's later bytes. -/
theorem temperatureRowReassembles : Obligations.TemperatureRowReassembles := by
  intro addr len seq b12 items s hcount block b n count placed
  have hblock : block.length = 13 := by simp [block]
  obtain ⟨hslots, hreports⟩ := s.reassemble_respView_reports tempItems tempItems_eq temperatureItems_congr
    tempItems_length (maxSf := maxSubframesT) (by decide) (by omega) hcount s.snap.temp hblock
  exact ⟨_, _, if_neg (Nat.not_lt.mpr hcount), rfl, hslots, fun hs => hreports hs _⟩

/-! ### OP_DECODE of the two commands -/

/-- Settles O30: the two branches of D95, over the received response. -/
theorem decodeOfCellVoltages : Obligations.DecodeOfCellVoltages := by
  intro s hf hc n count b placed
  by_cases hn : 16 < count
  · refine ⟨_, _, rfl, (execOpDecode_cellV hf hc).trans (if_pos hn), ?_⟩
    rw [if_pos hn]
    rfl
  · obtain ⟨hslots, hreports⟩ := cellRun_reports hf (Nat.le_of_not_lt hn)
    refine ⟨_, _, rfl, (execOpDecode_cellV hf hc).trans (if_neg hn), ?_⟩
    rw [if_neg hn]
    exact ⟨_, s.reportReassembly_onSnap_validated _ _, hslots, hreports⟩

/-- Settles O31: the two branches of D96, over the received response. -/
theorem decodeOfTemperatures : Obligations.DecodeOfTemperatures := by
  intro s hf hc n count b placed
  by_cases hn : 4 < count
  · refine ⟨_, _, rfl, (execOpDecode_temps hf hc).trans (if_pos hn), ?_⟩
    rw [if_pos hn]
    rfl
  · obtain ⟨hslots, hreports⟩ := tempRun_reports hf (Nat.le_of_not_lt hn)
    refine ⟨_, _, rfl, (execOpDecode_temps hf hc).trans (if_neg hn), ?_⟩
    rw [if_neg hn]
    exact ⟨_, s.reportReassembly_onSnap_validated _ _, hslots, hreports⟩

/-! ### One lost subframe -/

/-- Settles O32: only subframe 0 is in use, so its three items are placed and every later subframe is skipped. -/
theorem lostSubframeDesynchronises : Obligations.LostSubframeDesynchronises := by
  intro s hf hc hfirst hlen hlo hhi hlost
  obtain ⟨v, t, hv, ht, hrun⟩ := decodeOfCellVoltages s hf hc
  cases hv
  rw [if_neg (Nat.not_lt.mpr hhi)] at hrun
  obtain ⟨cellV, hframe, hslots, hexamined, hrem, hskip, hmis⟩ := hrun
  have hused : usedSubframes s.rxBuf.read (min 16 (s.rxLen / 13)) = [0] :=
    usedSubframes_of_lost hfirst hlost (by omega)
  have hplaced : placedItems s.rxBuf.read (voltageItems s.rxBuf.read) (min 16 (s.rxLen / 13)) s.snap.cellCnt.toNat
      = voltageItems s.rxBuf.read 0 := by
    rw [placedItems, hused, List.flatMap_singleton]
    exact List.take_of_length_le hlo.le
  have hidx : t.ra.idx.toNat = min 16 (s.rxLen / 13) := hexamined.eq_of_lt (by rw [hused]; exact hlo)
  rw [hidx, hused] at hskip
  rw [hplaced] at hslots hrem
  have hsnap : t.snap.cellV = cellV := by rw [hframe]
  refine ⟨t, ht, ?_, ?_, hidx, hskip, hrem, fun k hk => ?_, fun k hk hkn => ?_⟩
  · rw [hframe]
    simp [hf.status]
  · rw [hmis, hskip, List.length_singleton]
    omega
  · rw [hsnap, hslots k, List.getElem?_eq_getElem hk]
  · rw [hsnap, hslots k, List.getElem?_eq_none hk]
    exact if_pos hkn

/-! ### Counts above capacity -/

/-- Settles O19: the three rows that use a count test it first, and D94 stores both without a test. -/
theorem oversizedCountsRaiseCapacityExceeded : Obligations.OversizedCountsRaiseCapacityExceeded :=
  ⟨fun _ _ _ _ _ _ _ _ _ h => if_pos h, fun _ _ _ _ _ _ h => if_pos h, fun _ _ _ _ _ h => if_pos h,
    fun _ _ _ _ _ => ⟨_, rfl, rfl, rfl, rfl⟩⟩

end Sys2Proof.Machine
end

section
/-! SUPPORT. What the host's contract makes of the unit, said once: what a round trip and a probe leave, which reads a
probe accepts, what a scan ends in, the moves of one request of a poll cycle, and how far the loop is in its cycle
(43_host_probe_and_poll.md R191 to R195). -/

namespace Sys2Proof.Machine

/-! ### Sequences of operations -/

/-- No sequence of operations writes the parameters (10_state.md R20). -/
theorem runOps_cfg {ops : List HostOp} {s t : State} (h : runOps ops s = .next t) : t.cfg = s.cfg := by
  induction ops generalizing s with
  | nil => cases h; rfl
  | cons op ops ih =>
    simp only [runOps] at h
    split at h
    · next u hu => exact (ih h).trans (exec_op_cfg hu)
    · cases h
    · cases h

/-! ### A round trip (R195) -/

/-- Without a read the round trip is its OP_ENCODE. -/
theorem runOps_roundOps_none (c : Byte) (s : State) :
    runOps (roundOps c none) s = .next (s.storeTx (requestFrame c)) :=
  rfl

/-- With a read it ends in the OP_DECODE of the loaded bytes. -/
theorem runOps_roundOps_some {s : State} {bs : List Byte} (h : bs.length ≤ s.cfg.rxCap) (c : Byte) :
    ∃ t, execOpDecode ((s.storeTx (requestFrame c)).loadRx bs) = .next t ∧
      runOps (roundOps c (some bs)) s = .next t := by
  obtain ⟨t, ht, -⟩ := execOpDecode_next ((s.storeTx (requestFrame c)).loadRx bs)
  have hload : exec (HostOp.load bs).instr (s.storeTx (requestFrame c)) = _ := exec_load h
  have hdecode : exec HostOp.decode.instr ((s.storeTx (requestFrame c)).loadRx bs) = .next t := ht
  refine ⟨t, ht, ?_⟩
  rw [roundOps, runOps_cons rfl, runOps_cons hload, runOps_cons hdecode, runOps_nil]

/-- An OP_DECODE that reports an error leaves the snapshot alone (60_exceptions.md R205). -/
theorem Decoded.snap_of_err {s t : State} (h : Decoded s t) (herr : t.status.err ≠ 0) : t.snap = s.snap := by
  cases h with
  | rejected => exact s.validated_snap
  | cellVTooMany | tempsTooMany | balTooMany | balOverrun => exact s.validated_snap
  | soc h | cellMinMax h | tempMinMax h | mos h | status h | cellV h | temps h | bal h | alarm h | unknown h =>
    exact absurd (by simp [h.status, Status.noteSkips]) herr

/-! ### The probe (R191) -/

/-- The bytes of an answer that R191 accepts. -/
def RightAnswer (bs : List Byte) : Prop :=
  13 ≤ bs.length ∧ bs[0]? = some 0xA5 ∧ bs[1]? = some 0x01 ∧ bs[2]? = some 0x90

/-- After a validation the acceptance condition holds of rightly framed bytes with the two header bytes of R191, and of
no others. -/
theorem State.validated_acceptsProbe_iff (s : State) :
    s.validated.acceptsProbe = true ↔ s.Framed ∧ s.rxBuf.read 2 = probeCmd ∧ s.rxBuf.read 1 = probeAddr := by
  simp only [State.acceptsProbe, Bool.and_eq_true, decide_eq_true_eq, s.validated_err_zero, and_assoc (a := s.Framed)]
  exact and_congr_right fun h => by rw [h.hdr]

/-- A probe accepts a read within RXCAP exactly when the read is a right answer. -/
theorem probe_some_accepts_iff {s : State} {bs : List Byte} (hs : s.rxBuf.wf s.cfg.rxCap = true)
    (haddr : s.expAddr = 0x01) (hbs : bs.length ≤ s.cfg.rxCap) :
    (probe s (some bs)).2 = true ↔ RightAnswer bs := by
  rw [probe_some hbs]
  refine (State.validated_acceptsProbe_iff _).trans ?_
  by_cases hl : 13 ≤ bs.length
  · have hread : ∀ k < 13, ((s.storeTx (requestFrame probeCmd)).loadRx bs).rxBuf.read k = byteAt bs k := fun k hk =>
      State.read_loadRx_of_lt (s := s.storeTx (requestFrame probeCmd)) hs hbs (Nat.lt_of_lt_of_le hk hl)
    have hget : ∀ k < 13, bs[k]? = some (byteAt bs k) := fun k hk => getElem?_eq_some_byteAt (Nat.lt_of_lt_of_le hk hl)
    simp only [State.Framed, hread 0 (by decide), hread 1 (by decide), hread 2 (by decide)]
    simp only [State.loadRx_rxLen, State.loadRx_expAddr, State.storeTx_expAddr, haddr, RightAnswer, hget 0 (by decide),
      hget 1 (by decide), hget 2 (by decide), Option.some_inj, blockLen, syncByte, probeCmd, probeAddr]
    tauto
  · simp [State.Framed, RightAnswer, blockLen, hl]

/-- A probe leaves its request in TXBUF and a read within RXCAP validated; a longer read, which the host cannot get,
leaves the unit as it was (notes/assumptions/13.md). -/
theorem probe_state_cases (s : State) (read : Option (List Byte)) :
    (probe s read).1 = s.storeTx (requestFrame probeCmd) ∨
    (∃ bs, bs.length ≤ s.cfg.rxCap ∧ (probe s read).1 = ((s.storeTx (requestFrame probeCmd)).loadRx bs).validated) ∨
    (probe s read).1 = s := by
  cases read with
  | none => exact .inl rfl
  | some bs =>
    by_cases h : bs.length ≤ s.cfg.rxCap
    · exact .inr (.inl ⟨bs, h, by rw [probe_some h]⟩)
    · have hload : exec (HostOp.load bs).instr (s.storeTx (requestFrame probeCmd)) = _ :=
        exec_opLoad_tooLong (Nat.lt_of_not_le h)
      have hrun : runOps (probeOps (some bs)) s = .refused (.loadTooLong bs.length s.cfg.rxCap) := by
        rw [probeOps, runOps_cons rfl, runOps, hload]
        rfl
      exact .inr (.inr (by rw [probe, hrun]))

/-- A unit with sound buffers and the parameters `c` that expects the address of R191. -/
def ReadyToProbe (c : Config) (s : State) : Prop := s.BuffersOk ∧ s.expAddr = 0x01 ∧ s.cfg = c

/-- A probe leaves the unit ready for the next one. -/
theorem ReadyToProbe.probe {c : Config} {s : State} (h : ReadyToProbe c s) (read : Option (List Byte)) :
    ReadyToProbe c (probe s read).1 := by
  obtain ⟨hbuffers, haddr, hcfg⟩ := h
  have hencode : (s.storeTx (requestFrame probeCmd)).BuffersOk :=
    exec_op_buffersOk (op := .encode probeCmd) rfl hbuffers
  obtain e | ⟨bs, hbs, e⟩ | e := probe_state_cases s read <;> rw [e]
  · exact ⟨hencode, haddr, hcfg⟩
  · have hload : ((s.storeTx (requestFrame probeCmd)).loadRx bs).BuffersOk := exec_op_buffersOk (exec_load hbs) hencode
    exact ⟨exec_op_buffersOk (op := .validate) rfl hload, (State.validated_expAddr _).trans haddr,
      (State.validated_cfg _).trans hcfg⟩
  · exact ⟨hbuffers, haddr, hcfg⟩

theorem ReadyToProbe.afterProbes {c : Config} (reads : List (Option (List Byte))) {s : State} (h : ReadyToProbe c s) :
    ReadyToProbe c (afterProbes reads s) := by
  induction reads generalizing s with
  | nil => exact h
  | cons read reads ih => exact ih (h.probe read)

/-! ### The scan (R192) -/

/-- Candidate `n` is accepted when it is probed in the state that the probes of the earlier ones leave. -/
def AcceptsAt (reads : List (Option (List Byte))) (s : State) (n : Nat) : Prop :=
  ∃ read, reads[n]? = some read ∧ (probe (afterProbes (reads.take n) s) read).2 = true

@[simp] theorem acceptsAt_cons_zero (read : Option (List Byte)) (reads : List (Option (List Byte))) (s : State) :
    AcceptsAt (read :: reads) s 0 ↔ (probe s read).2 = true := by
  simp [AcceptsAt]

@[simp] theorem acceptsAt_cons_succ (read : Option (List Byte)) (reads : List (Option (List Byte))) (s : State)
    (n : Nat) : AcceptsAt (read :: reads) s (n + 1) ↔ AcceptsAt reads (probe s read).1 n := by
  simp [AcceptsAt]

theorem AcceptsAt.lt_length {reads : List (Option (List Byte))} {s : State} {n : Nat} (h : AcceptsAt reads s n) :
    n < reads.length := by
  obtain ⟨read, hread, -⟩ := h
  exact (List.getElem?_eq_some_iff.mp hread).1

/-- After a rejected first candidate, none of the first `n + 1` is accepted when none of the next `n` is. -/
theorem not_acceptsAt_cons {read : Option (List Byte)} {s : State} (h : (probe s read).2 = false)
    {reads : List (Option (List Byte))} {n : Nat} (hn : ∀ m < n, ¬AcceptsAt reads (probe s read).1 m) :
    ∀ m < n + 1, ¬AcceptsAt (read :: reads) s m :=
  Nat.forall_lt_succ_left.mpr ⟨by simp [h], by simpa using hn⟩

/-- Everything that a scan from identifier `n₀` can end in. -/
inductive Scanned (n₀ : Nat) (reads : List (Option (List Byte))) (s : State) : ScanResult → Prop
  | found (k : Nat) (hk : AcceptsAt reads s k) (hfirst : ∀ m < k, ¬AcceptsAt reads s m) :
      Scanned n₀ reads s ⟨some (n₀ + k), List.range' n₀ k, afterProbes (reads.take (k + 1)) s⟩
  | exhausted (hnone : ∀ m < reads.length, ¬AcceptsAt reads s m) :
      Scanned n₀ reads s ⟨none, List.range' n₀ reads.length, afterProbes reads s⟩

/-- The scan ends at the first acceptance, or exhausts the candidates. -/
theorem scanFrom_scanned (n₀ : Nat) (reads : List (Option (List Byte))) (s : State) :
    Scanned n₀ reads s (scanFrom n₀ reads s) := by
  induction reads generalizing n₀ s with
  | nil => exact .exhausted (by simp)
  | cons read reads ih =>
    cases h : (probe s read).2 with
    | true =>
      rw [scanFrom_accept h]
      exact .found 0 ((acceptsAt_cons_zero ..).mpr h) (by simp)
    | false =>
      rw [scanFrom_reject h]
      generalize scanFrom (n₀ + 1) reads (probe s read).1 = r, ih (n₀ + 1) (probe s read).1 = hr
      cases hr with
      | found k hk hfirst =>
        have := Scanned.found (n₀ := n₀) (k + 1) ((acceptsAt_cons_succ ..).mpr hk) (not_acceptsAt_cons h hfirst)
        simpa [List.range'_succ, Nat.add_right_comm, Nat.add_assoc] using this
      | exhausted hnone =>
        have := Scanned.exhausted (n₀ := n₀) (reads := read :: reads) (not_acceptsAt_cons h hnone)
        simpa [List.range'_succ] using this

section Scanned

variable {reads : List (Option (List Byte))} {s : State} {r : ScanResult} (h : Scanned 0 reads s r)
include h

/-- The candidate found is the first that is accepted, and there is only one first. -/
theorem Scanned.found_eq_some_iff (n : Nat) :
    r.found = some n ↔ AcceptsAt reads s n ∧ ∀ m < n, ¬AcceptsAt reads s m := by
  cases h with
  | found k hk hfirst =>
    rw [Nat.zero_add, Option.some_inj]
    constructor
    · rintro rfl
      exact ⟨hk, hfirst⟩
    · rintro ⟨hn, hfirst'⟩
      exact Nat.le_antisymm (Nat.le_of_not_lt fun hlt => hfirst n hlt hn) (Nat.le_of_not_lt fun hlt => hfirst' k hlt hk)
  | exhausted hnone => exact iff_of_false nofun fun ⟨hn, _⟩ => hnone n hn.lt_length hn

theorem Scanned.found_eq_none_iff : r.found = none ↔ ∀ n < reads.length, ¬AcceptsAt reads s n := by
  cases h with
  | found k hk _ => exact iff_of_false nofun fun hnone => hnone k hk.lt_length hk
  | exhausted hnone => exact iff_of_true rfl hnone

/-- The candidates before the one found are closed, or all of them. -/
theorem Scanned.closed_eq : r.closed = List.range (r.found.getD reads.length) := by
  cases h <;> simp [List.range_eq_range']

/-- The candidates up to the one found have been probed, or all of them. -/
theorem Scanned.state_eq : r.state = afterProbes (reads.take ((r.found.map (· + 1)).getD reads.length)) s := by
  cases h <;> simp

end Scanned

/-- Where the unit is ready and the reads are within RXCAP, the accepted candidates are those with a right answer. -/
theorem acceptsAt_iff_rightAnswer {reads : List (Option (List Byte))} {s : State} (hs : s.BuffersOk)
    (haddr : s.expAddr = 0x01) (hreads : ∀ bs, some bs ∈ reads → bs.length ≤ s.cfg.rxCap) (n : Nat) :
    AcceptsAt reads s n ↔ ∃ bs, reads[n]? = some (some bs) ∧ RightAnswer bs := by
  obtain ⟨⟨-, -, hrx, -⟩, haddr', hcfg⟩ := ReadyToProbe.afterProbes (reads.take n) ⟨hs, haddr, rfl⟩
  have hprobe : ∀ bs, reads[n]? = some (some bs) →
      ((probe (afterProbes (reads.take n) s) (some bs)).2 = true ↔ RightAnswer bs) := fun bs hbs =>
    probe_some_accepts_iff hrx haddr' (by rw [hcfg]; exact hreads bs (List.mem_of_getElem? hbs))
  constructor
  · rintro ⟨_ | bs, hread, haccept⟩
    · cases haccept
    · exact ⟨bs, hread, (hprobe bs hread).mp haccept⟩
  · rintro ⟨bs, hread, hright⟩
    exact ⟨some bs, hread, (hprobe bs hread).mpr hright⟩

/-! ### One request of a poll cycle (R193, R195) -/

/-- Where the loop stands before request `k` of a cycle, and after the last one for `k = 9`. -/
def PollPhase.before : Nat → PollPhase
  | 0 => .init
  | k + 1 => .nextRequest (Fin.ofNat 9 k)

theorem PollPhase.before_succ (k : Fin 9) : PollPhase.before (k + 1) = .nextRequest k := by
  simp [PollPhase.before]

section Request

variable (reads : Nat → Vector (Option (List Byte)) 9) (c : Nat) (s : State) (k : Fin 9)

/-- The move that writes request `k`. -/
theorem pollStep_before :
    pollStep reads ⟨.before k, c, s⟩ = .next ⟨.awaitResponse k, c, s.storeTx (requestFrame pollCodes[k])⟩ := by
  obtain ⟨_ | k, hk⟩ := k
  · rfl
  · have hmod : k % 9 = k := Nat.mod_eq_of_lt (by omega)
    simp only [pollStep, PollPhase.before, Fin.val_ofNat, hmod, dif_pos hk]
    rfl

variable {reads c s k}

/-- The move after a failed read (R195). -/
theorem pollStep_noRead (hr : (reads c)[k] = none) :
    pollStep reads ⟨.awaitResponse k, c, s⟩ = .next ⟨.nextRequest k, c, s⟩ := by
  simp only [pollStep, hr]

/-- The move that loads a read within RXCAP. -/
theorem pollStep_read {bs : List Byte} (hr : (reads c)[k] = some bs) (hbs : bs.length ≤ s.cfg.rxCap) :
    pollStep reads ⟨.awaitResponse k, c, s⟩ = .next ⟨.decode k, c, s.loadRx bs⟩ := by
  simp only [pollStep, hr]
  exact issueThen_next (exec_load hbs) _

/-- The move that decodes. -/
theorem pollStep_decode {t : State} (h : execOpDecode s = .next t) :
    pollStep reads ⟨.decode k, c, s⟩ = .next ⟨.nextRequest k, c, t⟩ :=
  issueThen_next (p := ⟨.decode k, c, s⟩) (op := .decode) h _

/-- Request `k` takes two moves, and a third one when its read gives bytes, and they run its round trip. -/
theorem pollFor_request (h : ∀ bs, (reads c)[k] = some bs → bs.length ≤ s.cfg.rxCap) :
    ∃ t, runOps (roundOps pollCodes[k] (reads c)[k]) s = .next t ∧
      pollFor reads (2 + [(reads c)[k]].countP Option.isSome) ⟨.before k, c, s⟩ = .next ⟨.before (k + 1), c, t⟩ := by
  rw [PollPhase.before_succ]
  cases hr : (reads c)[k] with
  | none =>
    refine ⟨_, runOps_roundOps_none _ s, ?_⟩
    exact (pollFor_succ (pollStep_before reads c s k) 1).trans (pollFor_succ (pollStep_noRead hr) 0)
  | some bs =>
    obtain ⟨t, hdecoded, hrun⟩ := runOps_roundOps_some (h bs hr) pollCodes[k]
    have hload := pollFor_succ (pollStep_read (s := s.storeTx (requestFrame pollCodes[k])) hr (h bs hr)) 1
    refine ⟨t, hrun, ?_⟩
    exact (pollFor_succ (pollStep_before reads c s k) 2).trans
      (hload.trans (pollFor_succ (pollStep_decode hdecoded) 0))

end Request

/-- The first `k` requests of a cycle run the first `k` round trips. -/
theorem pollFor_requests {reads : Nat → Vector (Option (List Byte)) 9} {c : Nat} {s : State}
    (h : ∀ (k : Fin 9) (bs : List Byte), (reads c)[k] = some bs → bs.length ≤ s.cfg.rxCap) {k : Nat} (hk : k ≤ 9) :
    ∃ t, runOps (((List.finRange 9).take k).flatMap fun j => roundOps pollCodes[j] (reads c)[j]) s = .next t ∧
      pollFor reads (2 * k + ((reads c).toList.take k).countP Option.isSome) ⟨.init, c, s⟩
        = .next ⟨.before k, c, t⟩ := by
  induction k with
  | zero => exact ⟨s, rfl, rfl⟩
  | succ k ih =>
    obtain ⟨t, hrun, hpoll⟩ := ih (Nat.le_of_lt hk)
    obtain ⟨u, hrun', hpoll'⟩ := pollFor_request (k := ⟨k, hk⟩) (by rw [runOps_cfg hrun]; exact h ⟨k, hk⟩)
    refine ⟨u, ?_, ?_⟩
    · rw [List.take_succ_eq_append_getElem (by simpa using hk), List.flatMap_append, runOps_append hrun]
      simpa using hrun'
    · rw [List.take_succ_eq_append_getElem (by simpa using hk), List.countP_append]
      rw [← (pollFor_add hpoll _).trans hpoll']
      congr 1
      simp only [Vector.getElem_toList, Fin.getElem_fin]
      omega

/-- The code that an operation encodes. -/
def HostOp.encoded? : HostOp → Option Byte
  | .encode c => some c
  | _ => none

/-- A round trip encodes its code once, whether or not its read fails. -/
theorem filterMap_encoded_roundOps (c : Byte) (read : Option (List Byte)) :
    (roundOps c read).filterMap HostOp.encoded? = [c] := by
  cases read <;> rfl

/-- A cycle encodes its nine codes in order. -/
theorem filterMap_encoded_pollOps (reads : Vector (Option (List Byte)) 9) :
    (pollOps reads).filterMap HostOp.encoded? = pollCodes.toList := by
  rw [pollOps, List.filterMap_flatMap]
  simp only [filterMap_encoded_roundOps]
  rfl

/-! ### How far the loop is in its cycle (R193) -/

/-- The moves from INIT to a phase when every read gives bytes; a whole cycle is 29 of them. -/
def PollPhase.progress : PollPhase → Nat
  | .init => 0
  | .awaitResponse k => 3 * k + 1
  | .decode k => 3 * k + 2
  | .nextRequest k => 3 * k + 3
  | .cycleComplete => 28

theorem PollPhase.progress_le (phase : PollPhase) : phase.progress ≤ 28 := by
  cases phase <;> simp only [PollPhase.progress] <;> omega

/-- The progress over all cycles. -/
def Poller.progress (p : Poller) : Nat := 29 * p.cycles + p.phase.progress

/-- Every move goes forward: it is one of the 29, or skips those of a failed read. -/
theorem Polled.progress_lt {reads : Nat → Vector (Option (List Byte)) 9} {p q : Poller} (h : Polled reads p q) :
    p.progress < q.progress := by
  cases h <;> simp only [Poller.progress, PollPhase.progress, *] <;> omega

/-- A move issues an operation or leaves the unit alone. -/
theorem Polled.bfu_cases {reads : Nat → Vector (Option (List Byte)) 9} {p q : Poller} (h : Polled reads p q) :
    q.bfu = p.bfu ∨ ∃ op : HostOp, exec op.instr p.bfu = .next q.bfu := by
  cases h with
  | init _ e | read _ _ _ _ e | decode _ _ e | next _ _ _ e => exact .inr ⟨_, e⟩
  | noRead | last | complete => exact .inl rfl

/-- A move keeps the unit's buffers and parameters. -/
theorem Polled.keeps_buffers {reads : Nat → Vector (Option (List Byte)) 9} {p q : Poller} (h : Polled reads p q)
    (hp : p.bfu.BuffersOk) : q.bfu.BuffersOk ∧ q.bfu.cfg = p.bfu.cfg := by
  obtain e | ⟨op, e⟩ := h.bfu_cases
  · rw [e]
    exact ⟨hp, rfl⟩
  · exact ⟨exec_op_buffersOk e hp, exec_op_cfg e⟩

/-- With reads within RXCAP the host makes any number of moves, each at least one place further. -/
theorem pollFor_next {reads : Nat → Vector (Option (List Byte)) 9} (n : Nat) {p : Poller} (hp : p.bfu.BuffersOk)
    (h : ∀ (c : Nat) (k : Fin 9) (bs : List Byte), (reads c)[k] = some bs → bs.length ≤ p.bfu.cfg.rxCap) :
    ∃ q, pollFor reads n p = .next q ∧ q.bfu.BuffersOk ∧ q.bfu.cfg = p.bfu.cfg ∧ p.progress + n ≤ q.progress := by
  induction n generalizing p with
  | zero => exact ⟨p, rfl, hp, rfl, Nat.le_refl _⟩
  | succ n ih =>
    obtain ⟨u, hstep, hu⟩ := pollStep_next (h p.cycles)
    obtain ⟨hbuffers, hcfg⟩ := hu.keeps_buffers hp
    obtain ⟨q, hq, hqbuffers, hqcfg, hqprogress⟩ := ih hbuffers (by rwa [hcfg])
    refine ⟨q, (pollFor_succ hstep n).trans hq, hqbuffers, hqcfg.trans hcfg, ?_⟩
    have := hu.progress_lt
    omega

end Sys2Proof.Machine
end

section
/-! PROOFS. The host's contract (43_host_probe_and_poll.md): the round trip, the probe, discovery and the poll loop. -/

namespace Sys2Proof.Machine

/-- Settles O51: without a read the one operation is an OP_ENCODE, and otherwise the last is the OP_DECODE, which
reports its error in place of a decoding. -/
theorem failedRoundTripKeepsTheSnapshot : Obligations.FailedRoundTripKeepsTheSnapshot := by
  refine ⟨fun c s => ⟨_, runOps_roundOps_none c s, rfl⟩, fun c bs s hbs => ?_⟩
  obtain ⟨t, hdecode, hrun⟩ := runOps_roundOps_some hbs c
  exact ⟨t, hrun, (execOpDecode_cases hdecode).snap_of_err⟩

/-- Settles O52: the read is loaded whole, and the validation with the acceptance condition tests its first bytes. -/
theorem probeAcceptsExactly : Obligations.ProbeAcceptsExactly :=
  fun _ _ ⟨_, _, hrx, _⟩ haddr hbs => ⟨rfl, probe_some_accepts_iff hrx haddr hbs⟩

/-- Settles O53: the two ends of a scan; the first accepted candidate is unique. -/
theorem scanClosesExactlyTheRejected : Obligations.ScanClosesExactlyTheRejected := by
  intro reads s
  have hscan := scanFrom_scanned 0 reads s
  refine ⟨hscan.closed_eq, hscan.found_eq_some_iff, hscan.found_eq_none_iff, hscan.state_eq, fun hs haddr hreads => ?_⟩
  have hright := acceptsAt_iff_rightAnswer hs haddr hreads
  have hfound := hscan.found_eq_some_iff
  have hnone := hscan.found_eq_none_iff
  simp only [hright] at hfound hnone
  exact ⟨hright, hfound, hnone⟩

/-- Settles O54: a supplied candidate is a namespace of one. -/
theorem discoveryOrTheOneSuppliedCandidate : Obligations.DiscoveryOrTheOneSuppliedCandidate := by
  refine fun s => ⟨fun _ => rfl, fun n read => ?_, fun q => ?_⟩
  · cases h : (probe s read).2 with
    | true => simp [discover, scanFrom_accept h]
    | false => simp [discover, scanFrom_reject h]
  · exact ⟨fun n h => by simp only [startHost, h], fun h => by simp only [startHost, h]⟩

/-- Settles O55: the nine requests in order, then the move to CYCLE_COMPLETE and the one back to INIT. -/
theorem pollCycleLoops : Obligations.PollCycleLoops := by
  intro reads c s h
  refine ⟨filterMap_encoded_pollOps (reads c), ?_⟩
  obtain ⟨t, hrun, hpoll⟩ := pollFor_requests h (Nat.le_refl 9)
  refine ⟨t, hrun, ?_⟩
  have hend : pollFor reads 2 ⟨.before 9, c, t⟩ = .next ⟨.init, c + 1, t⟩ := rfl
  rw [← (pollFor_add hpoll 2).trans hend, List.take_of_length_le (by simp)]
  congr 1
  omega

/-- Settles O56: each move is one place of progress at least, and a cycle has 29 places. -/
theorem pollNeverEnds : Obligations.PollNeverEnds := by
  intro reads p hp h n
  obtain ⟨q, hq, hbuffers, hcfg, hprogress⟩ := pollFor_next n hp h
  refine ⟨q, hq, hbuffers, hcfg, ?_⟩
  have := q.phase.progress_le
  simp only [Poller.progress] at hprogress
  omega

end Sys2Proof.Machine
end

section
/-! SUPPORT. The errors and flags that OP_VALIDATE and OP_DECODE leave, each with its cause, said once
(60_exceptions.md R200 to R208). -/

namespace Sys2Proof.Machine

/-! ### Validation -/

/-- A validation that fails leaves F_* alone and raises one of the codes 1 to 3 (40_frame_codec.md R114). -/
theorem State.validated_rejected {s : State} (h : ¬s.Framed) :
    s.validated.hdr = s.hdr ∧ s.validated.status.hdrv = false ∧ s.validated.status.err.toNat ≤ 3 := by
  obtain ⟨-, e⟩ | ⟨-, -, e⟩ | ⟨-, -, -, e⟩ | ⟨hl, h0, h1, -⟩ := s.validated_cases
  · simp [e, ErrKind.code, Status.clear]
  · simp [e, ErrKind.code, Status.clear]
  · simp [e, ErrKind.code, Status.clear]
  · exact absurd ⟨hl, h0, h1⟩ h

/-- STATUS.HDRV says that the three framing tests passed (40_frame_codec.md R115). -/
theorem State.validated_hdrv_iff (s : State) : s.validated.status.hdrv = true ↔ s.Framed := by
  by_cases h : s.Framed
  · exact iff_of_true (by rw [h.status]) h
  · simp [h, (State.validated_rejected h).2.1]

/-- An error raised on the validated state (60_exceptions.md R205). -/
theorem State.raise_validated (s : State) (e : ErrKind) :
    s.validated.raise e =
      { s with status := { s.validated.status with err := e.code }, ra := .clear, hdr := s.validated.hdr } := by
  simp [State.raise]

/-! ### The causes of codes 4 and 5, and of SEQMIS -/

/-- The count that the received command uses is above the capacity of its array: the cause of code 4
(60_exceptions.md R204). -/
def State.CountTooLarge (s : State) : Prop :=
  ((s.rxBuf.read 2 = 0x95 ∨ s.rxBuf.read 2 = 0x97) ∧ 16 < s.snap.cellCnt.toNat) ∨
    (s.rxBuf.read 2 = 0x96 ∧ 4 < s.snap.sensCnt.toNat)

/-- The balancing bytes of a 0x97 response reach past RXLEN: the cause of code 5 (60_exceptions.md R206). -/
def State.BalOverrun (s : State) : Prop := s.rxBuf.read 2 = 0x97 ∧ s.rxLen < 4 + s.snap.cellCnt.toNat

/-- Some subframe that is examined, of `n` whole ones with `per` items each, has a number that is not its position + 1
(42_reassembler.md R173, R174). -/
def SkipsSubframe (b : Nat → Byte) (per n count : Nat) : Prop :=
  ∃ i, i < n ∧ per * (usedSubframes b i).length < count ∧ (b (13 * i + 4)).toNat ≠ i + 1

/-! ### OP_DECODE -/

/-- A decoder leaves F_*, HDRV and CSUMOK as validation wrote them (41_field_decoders.md R140). -/
theorem Decoded.keeps_validation {s t : State} (h : Decoded s t) :
    t.hdr = s.validated.hdr ∧ t.status.hdrv = s.validated.status.hdrv ∧
    t.status.csumok = s.validated.status.csumok := by
  cases h <;> exact ⟨rfl, rfl, rfl⟩

/-- OP_DECODE ends in a failed validation, in one of the two errors of a decoder, or without an error
(40_frame_codec.md R118). -/
theorem Decoded.error_cases {s t : State} (h : Decoded s t) :
    (¬s.Framed ∧ t = s.validated) ∨
    (s.Framed ∧ s.CountTooLarge ∧ t = s.validated.raise .capacityExceeded) ∨
    (s.Framed ∧ ¬s.CountTooLarge ∧ s.BalOverrun ∧ t = s.validated.raise .payloadOverrun) ∨
    (s.Framed ∧ ¬s.CountTooLarge ∧ ¬s.BalOverrun ∧ t.status.err = 0) := by
  cases h with
  | rejected h => exact .inl ⟨h, rfl⟩
  | cellVTooMany h hc hn => exact .inr (.inl ⟨h, .inl ⟨.inl hc, hn⟩, rfl⟩)
  | tempsTooMany h hc hn => exact .inr (.inl ⟨h, .inr ⟨hc, hn⟩, rfl⟩)
  | balTooMany h hc hn => exact .inr (.inl ⟨h, .inl ⟨.inr hc, hn⟩, rfl⟩)
  | balOverrun h hc hn hm => exact .inr (.inr (.inl ⟨h, by simp [State.CountTooLarge, hc, hn], ⟨hc, hm⟩, rfl⟩))
  | cellV h hc hn | temps h hc hn =>
    exact .inr (.inr (.inr ⟨h, by simp [State.CountTooLarge, hc, hn], by simp [State.BalOverrun, hc],
      by simp [h.status, Status.noteSkips]⟩))
  | bal h hc hn hm =>
    exact .inr (.inr (.inr ⟨h, by simp [State.CountTooLarge, hc, hn], by simp [State.BalOverrun, hm],
      by simp [h.status]⟩))
  | soc h hc | cellMinMax h hc | tempMinMax h hc | mos h hc | status h hc | alarm h hc =>
    exact .inr (.inr (.inr ⟨h, by simp [State.CountTooLarge, hc], by simp [State.BalOverrun, hc],
      by simp [h.status]⟩))
  | unknown h hc =>
    have hne := (namedCode_eq_false_iff _).mp hc
    exact .inr (.inr (.inr ⟨h, by simp [State.CountTooLarge, hne], by simp [State.BalOverrun, hne],
      by simp [h.status]⟩))

/-- An OP_DECODE that reports an error failed validation, or its decoder raised one of the codes 4 and 5 on the validated
state (60_exceptions.md R205). -/
theorem Decoded.of_err {s t : State} (h : Decoded s t) (herr : t.status.err ≠ 0) :
    (¬s.Framed ∧ t = s.validated) ∨ (s.Framed ∧ ∃ e : ErrKind, 4 ≤ e.code.toNat ∧ t = s.validated.raise e) := by
  obtain hr | ⟨hf, -, rfl⟩ | ⟨hf, -, -, rfl⟩ | ⟨-, -, -, he⟩ := h.error_cases
  · exact .inl hr
  · exact .inr ⟨hf, _, by decide, rfl⟩
  · exact .inr ⟨hf, _, by decide, rfl⟩
  · exact absurd he herr

/-- Each code is raised on its cause exactly: the causes exclude one another. -/
theorem Decoded.err_iff {s t : State} (h : Decoded s t) :
    (t.status.err = 1 ↔ s.rxLen < blockLen) ∧
    (t.status.err = 2 ↔ blockLen ≤ s.rxLen ∧ s.rxBuf.read 0 ≠ syncByte) ∧
    (t.status.err = 3 ↔ blockLen ≤ s.rxLen ∧ s.rxBuf.read 0 = syncByte ∧ s.rxBuf.read 1 ≠ s.expAddr) ∧
    (t.status.err = 4 ↔ s.Framed ∧ s.CountTooLarge) ∧
    (t.status.err = 5 ↔ s.Framed ∧ ¬s.CountTooLarge ∧ s.BalOverrun) := by
  obtain ⟨hf, rfl⟩ | ⟨⟨hl, h0, h1⟩, hc, rfl⟩ | ⟨⟨hl, h0, h1⟩, hc, hm, rfl⟩ | ⟨⟨hl, h0, h1⟩, hc, hm, he⟩ :=
    h.error_cases
  · obtain ⟨hl, e⟩ | ⟨hl, h0, e⟩ | ⟨hl, h0, h1, e⟩ | ⟨hl, h0, h1, -⟩ := s.validated_cases
    · simp [State.Framed, e, ErrKind.code, hl, Nat.not_le.mpr hl]
    · simp [State.Framed, e, ErrKind.code, hl, h0]
    · simp [State.Framed, e, ErrKind.code, hl, h0, h1]
    · exact absurd ⟨hl, h0, h1⟩ hf
  · simp [State.Framed, ErrKind.code, hl, h0, h1, hc]
  · simp [State.Framed, ErrKind.code, hl, h0, h1, hc, hm]
  · simp [State.Framed, he, hl, h0, h1, hc, hm]

/-- UNK reports one of the 247 other codes (41_field_decoders.md R149). -/
theorem Decoded.unk_iff {s t : State} (h : Decoded s t) :
    t.status.unk = true ↔ s.Framed ∧ namedCode (s.rxBuf.read 2) = false := by
  cases h with
  | rejected h => simp [h]
  | unknown h hc => exact iff_of_true rfl ⟨h, hc⟩
  | soc h hc | cellMinMax h hc | tempMinMax h hc | mos h hc | status h hc | cellVTooMany h hc | cellV h hc
  | tempsTooMany h hc | temps h hc | balTooMany h hc | balOverrun h hc | bal h hc | alarm h hc =>
    simp [hc, namedCode, Status.noteSkips]

/-- SEQMIS reports a skipped subframe of a reassembly (42_reassembler.md R174). -/
theorem Decoded.seqmis_iff {s t : State} (h : Decoded s t) :
    t.status.seqmis = true ↔ s.Framed ∧ ¬s.CountTooLarge ∧
      ((s.rxBuf.read 2 = 0x95 ∧ SkipsSubframe s.rxBuf.read 3 (min 16 (s.rxLen / 13)) s.snap.cellCnt.toNat) ∨
       (s.rxBuf.read 2 = 0x96 ∧ SkipsSubframe s.rxBuf.read 7 (min 3 (s.rxLen / 13)) s.snap.sensCnt.toNat)) := by
  cases h with
  | rejected h => simp [h]
  | cellVTooMany h hc hn | tempsTooMany h hc hn | balTooMany h hc hn => simp [State.CountTooLarge, hc, hn]
  | cellV h hc hn =>
    have hcount : ¬s.CountTooLarge := by simp [State.CountTooLarge, hc, hn]
    rw [(cellRun_reports h hn).2.seqmis_iff, and_iff_right h, and_iff_right hcount]
    simp [hc, SkipsSubframe]
  | temps h hc hn =>
    have hcount : ¬s.CountTooLarge := by simp [State.CountTooLarge, hc, hn]
    rw [(tempRun_reports h hn).2.seqmis_iff, and_iff_right h, and_iff_right hcount]
    simp [hc, SkipsSubframe]
  | soc h hc | cellMinMax h hc | tempMinMax h hc | mos h hc | status h hc | balOverrun h hc | bal h hc
  | alarm h hc => simp [hc]
  | unknown h hc => simp [(namedCode_eq_false_iff _).mp hc]

/-- CSUMOK is computed over block 0, whatever else the outcome is (40_frame_codec.md R117). -/
theorem Decoded.csumok_iff {s t : State} (h : Decoded s t) : t.status.csumok = true ↔ 13 ≤ s.rxLen ∧
    ((List.range 12).map fun k => (s.rxBuf.read k).toNat).sum % 256 = (s.rxBuf.read 12).toNat := by
  obtain ⟨-, -, hcsum⟩ := h.keeps_validation
  rw [hcsum, s.validated_csumok_iff, s.csumOk_iff]
  rfl

/-- An OP_VALIDATE that raises an error does what OP_DECODE does (40_frame_codec.md R118). -/
theorem Decoded.of_exec_err {i : Instr} (hi : i ∈ [Instr.opValidate, Instr.opDecode]) {s t : State}
    (h : exec i s = .next t) (herr : t.status.err ≠ 0) : Decoded s t := by
  obtain rfl | rfl : i = .opValidate ∨ i = .opDecode := by simpa using hi
  · cases h
    exact .rejected fun hf => herr (s.validated_err_zero.mpr hf)
  · exact execOpDecode_cases h

end Sys2Proof.Machine
end

section
/-! PROOFS. The errors (60_exceptions.md): each has its cause, and each is precise. -/

namespace Sys2Proof.Machine

/-- Settles O33: the causes of the five codes exclude one another, and each flag has its own. -/
theorem decodeErrorsHaveTheirCauses : Obligations.DecodeErrorsHaveTheirCauses := by
  intro s
  obtain ⟨t, ht, -⟩ := execOpDecode_next s
  have hd := execOpDecode_cases ht
  refine ⟨t, ht, ?_⟩
  intro cmd tooMany
  obtain ⟨hle, -, -, -, hmis, -, -⟩ := hd.reported.statusOk
  obtain ⟨-, hhdrv, -⟩ := hd.keeps_validation
  have hunk := hd.unk_iff.trans (and_congr_right' decide_eq_false_iff_not)
  obtain ⟨h1, h2, h3, h4, h5⟩ := hd.err_iff
  exact ⟨h1, h2, h3, h4, h5, hle, hunk, hd.seqmis_iff, fun h => (hmis h).1, hhdrv ▸ s.validated_hdrv_iff,
    hd.csumok_iff⟩

/-- Settles O34: a failed validation clears STATUS and RA_*, and a decoder's error is raised on the validated state. -/
theorem errorsArePrecise : Obligations.ErrorsArePrecise := by
  intro i hi s t h herr
  have hd := Decoded.of_exec_err hi h herr
  have hcsum := hd.csumok_iff
  obtain ⟨hf, rfl⟩ | ⟨hf, e, he, rfl⟩ := hd.of_err herr
  · obtain ⟨hhdr, hhdrv, hle⟩ := State.validated_rejected hf
    exact ⟨s.validated_frame, fun _ => ⟨hhdr, hhdrv⟩, fun h4 => absurd hle (Nat.not_le.mpr h4), hcsum,
      s.validated_unk, s.validated_seqmis⟩
  · exact ⟨s.raise_validated e, fun h3 => absurd h3 (Nat.not_le.mpr he),
      fun _ => ⟨hf.hdr, s.validated_hdrv_iff.mpr hf⟩, hcsum, s.validated_unk, s.validated_seqmis⟩

end Sys2Proof.Machine
end

section
/-! PROOFS. The words written out from the vectors (95_test_vectors.md), through the equations of the two decoders: a
request frame reads as the row of its code, and a block from another address than the host's as its response row. -/

namespace Sys2Proof

/-- Byte 1 of a request frame is the host's address, so bytes with another address match no REQ row (30_encoding.md
R80). -/
theorem decodeRequest_of_other_address {bs : List Byte} (h1 : byteAt bs 1 ≠ hostAddr) :
    decodeRequest bs = .error .notARequest := by
  have hframe : bs ≠ requestFrame (byteAt bs 2) := fun h => h1 (congrArg (byteAt · 1) h)
  have hbody : bs.take 12 ≠ requestBody (byteAt bs 2) := fun h => h1 <| calc
    byteAt bs 1 = byteAt (bs.take 12) 1 := by simp [byteAt]
    _ = hostAddr := congrArg (byteAt · 1) h
  simp [decodeRequest, hframe, hbody]

/-- A block from another address than the host's reads as its response row (30_encoding.md R82). -/
theorem decode_of_other_address {bs : List Byte} (hl : blockLen ≤ bs.length) (h0 : byteAt bs 0 = syncByte)
    (h1 : byteAt bs 1 ≠ hostAddr) : decode bs = .ok (responseRow bs) := by
  simp only [decode, decodeRequest_of_other_address h1]
  exact decodeResponse_eq_ok_iff.mpr ⟨hl, h0, rfl⟩

/-- Settles O5: the first two words are the frames of 0x90 and 0x13, and the others are blocks from address 0x01, each
with the row of its command code. -/
theorem sampleWordsDecode : Obligations.SampleWordsDecode := by
  refine ⟨?reqSoc, ?reqAny, ?rspSoc, ?rspMos, ?rspCellV, ?rspUnknown⟩
  case reqSoc => exact decode_requestFrame 0x90
  case reqAny =>
    have hrow : requestRow 0x13 = .reqAny 0x13 := requestRow_of_not_named rfl
    exact hrow ▸ decode_requestFrame 0x13
  all_goals rw [decode_of_other_address (by decide) rfl (by decide)]
  case rspSoc => rw [responseRow_soc rfl]; rfl
  case rspMos => rw [responseRow_mos rfl]; rfl
  case rspCellV => rw [responseRow_cellV rfl]; rfl
  case rspUnknown => rw [responseRow_unknown rfl]; rfl

end Sys2Proof
end
